-- ==== Sys2Proof/Word.lean ====
section
/-! DEFINITION. The word types of the machine and their plainest arithmetic.
Rules R8, R9 and R10 of 00_scope.md: every value is unsigned, and bit 0 is the least significant bit. -/

namespace Sys2Proof

/-- An 8-bit value: a general register, a timer, a byte of memory, the immediate `nn` (R8, R92). -/
abbrev Byte := BitVec 8

/-- A 16-bit value: `pc`, `I`, a stack entry, an instruction word, a keypad snapshot (R8). -/
abbrev Word := BitVec 16

/-- The 12-bit address immediate `nnn` (R92). -/
abbrev Imm12 := BitVec 12

/-- The index of a general register, 0 to 15 (R20); also the index of a logical key (R47). -/
abbrev RegIdx := Fin 16

/-- `zext_16` of R10: zero extension to 16 bits. -/
def zext16 {w : Nat} (v : BitVec w) : Word := v.setWidth 16

end Sys2Proof
end

