-- ==== Sys2Proof/Syntax.lean ====
section
/-! DEFINITION. The instructions: one constructor for each of the 34 rows of the opcode map, rule R95 of
30_encoding.md, in the order of that map. The fields have the widths of R92, so a term cannot hold a value that
the encoding has no room for. -/

namespace Sys2Proof

/-- The 34 instruction forms (R95). -/
inductive Instr where
  /-- `00E0`, CLS (R120). -/
  | cls
  /-- `00EE`, RET (R130). -/
  | ret
  /-- `1nnn`, JP nnn (R131). -/
  | jp (nnn : Imm12)
  /-- `2nnn`, CALL nnn (R132). -/
  | call (nnn : Imm12)
  /-- `3xnn`, SE Vx, nn (R133). -/
  | seImm (x : RegIdx) (nn : Byte)
  /-- `4xnn`, SNE Vx, nn (R134). -/
  | sneImm (x : RegIdx) (nn : Byte)
  /-- `5xy0`, SE Vx, Vy (R135). -/
  | seReg (x y : RegIdx)
  /-- `6xnn`, LD Vx, nn (R152). -/
  | ldImm (x : RegIdx) (nn : Byte)
  /-- `7xnn`, ADD Vx, nn (R153). -/
  | addImm (x : RegIdx) (nn : Byte)
  /-- `8xy0`, LD Vx, Vy (R154). -/
  | ldReg (x y : RegIdx)
  /-- `8xy1`, OR Vx, Vy (R155). -/
  | orReg (x y : RegIdx)
  /-- `8xy2`, AND Vx, Vy (R156). -/
  | andReg (x y : RegIdx)
  /-- `8xy3`, XOR Vx, Vy (R157). -/
  | xorReg (x y : RegIdx)
  /-- `8xy4`, ADD Vx, Vy (R158). -/
  | addReg (x y : RegIdx)
  /-- `8xy5`, SUB Vx, Vy (R159). -/
  | subReg (x y : RegIdx)
  /-- `8xy6`, SHR Vx (R160). The field `y` is free and ignored (R102). -/
  | shr (x y : RegIdx)
  /-- `8xy7`, SUBN Vx, Vy (R161). -/
  | subnReg (x y : RegIdx)
  /-- `8xyE`, SHL Vx (R162). The field `y` is free and ignored (R102). -/
  | shl (x y : RegIdx)
  /-- `9xy0`, SNE Vx, Vy (R136). -/
  | sneReg (x y : RegIdx)
  /-- `Annn`, LD I, nnn (R180). -/
  | ldI (nnn : Imm12)
  /-- `Bnnn`, JP V0, nnn (R137). -/
  | jpV0 (nnn : Imm12)
  /-- `Cxnn`, RND Vx, nn (R163). -/
  | rnd (x : RegIdx) (nn : Byte)
  /-- `Dxyn`, DRW Vx, Vy, n (R121). `n` is a row count, 0 to 15. -/
  | drw (x y : RegIdx) (n : Fin 16)
  /-- `Ex9E`, SKP Vx (R200). -/
  | skp (x : RegIdx)
  /-- `ExA1`, SKNP Vx (R201). -/
  | sknp (x : RegIdx)
  /-- `Fx07`, LD Vx, DT (R215). -/
  | ldVxDT (x : RegIdx)
  /-- `Fx0A`, LD Vx, K (R202). -/
  | ldVxK (x : RegIdx)
  /-- `Fx15`, LD DT, Vx (R216). -/
  | ldDTVx (x : RegIdx)
  /-- `Fx18`, LD ST, Vx (R217). -/
  | ldSTVx (x : RegIdx)
  /-- `Fx1E`, ADD I, Vx (R181). -/
  | addI (x : RegIdx)
  /-- `Fx29`, LD F, Vx (R182). -/
  | ldF (x : RegIdx)
  /-- `Fx33`, LD B, Vx (R183). -/
  | ldB (x : RegIdx)
  /-- `Fx55`, LD [I], Vx (R184). -/
  | storeRegs (x : RegIdx)
  /-- `Fx65`, LD Vx, [I] (R185). -/
  | loadRegs (x : RegIdx)
  deriving DecidableEq, Repr

end Sys2Proof
end

