-- ==== Sys2Proof/WellFormed.lean ====
section
/-! DEFINITION. What is well formed: the opcode map of rule R95 (30_encoding.md) as a table of masks and matches, the
words that belong to it, and the range of every operand field of an instruction (R92). -/

namespace Sys2Proof

/-- One row of the opcode map: a word `op` belongs to the row when `op & mask = bits` (R95). -/
structure OpcodeRow where
  pattern : String
  mask    : Word
  bits    : Word
  deriving DecidableEq, Repr

def OpcodeRow.holds (r : OpcodeRow) (w : Word) : Bool := w &&& r.mask == r.bits

/-- Rows 1 to 9 of R95. -/
def opcodeRows1 : List OpcodeRow :=
  [⟨"00E0", 0xFFFF, 0x00E0⟩, ⟨"00EE", 0xFFFF, 0x00EE⟩, ⟨"1nnn", 0xF000, 0x1000⟩,
   ⟨"2nnn", 0xF000, 0x2000⟩, ⟨"3xnn", 0xF000, 0x3000⟩, ⟨"4xnn", 0xF000, 0x4000⟩,
   ⟨"5xy0", 0xF00F, 0x5000⟩, ⟨"6xnn", 0xF000, 0x6000⟩, ⟨"7xnn", 0xF000, 0x7000⟩]

/-- Rows 10 to 18 of R95, category 8 (R97). -/
def opcodeRows2 : List OpcodeRow :=
  [⟨"8xy0", 0xF00F, 0x8000⟩, ⟨"8xy1", 0xF00F, 0x8001⟩, ⟨"8xy2", 0xF00F, 0x8002⟩,
   ⟨"8xy3", 0xF00F, 0x8003⟩, ⟨"8xy4", 0xF00F, 0x8004⟩, ⟨"8xy5", 0xF00F, 0x8005⟩,
   ⟨"8xy6", 0xF00F, 0x8006⟩, ⟨"8xy7", 0xF00F, 0x8007⟩, ⟨"8xyE", 0xF00F, 0x800E⟩]

/-- Rows 19 to 25 of R95. -/
def opcodeRows3 : List OpcodeRow :=
  [⟨"9xy0", 0xF00F, 0x9000⟩, ⟨"Annn", 0xF000, 0xA000⟩, ⟨"Bnnn", 0xF000, 0xB000⟩,
   ⟨"Cxnn", 0xF000, 0xC000⟩, ⟨"Dxyn", 0xF000, 0xD000⟩, ⟨"Ex9E", 0xF0FF, 0xE09E⟩,
   ⟨"ExA1", 0xF0FF, 0xE0A1⟩]

/-- Rows 26 to 34 of R95, category F (R99). -/
def opcodeRows4 : List OpcodeRow :=
  [⟨"Fx07", 0xF0FF, 0xF007⟩, ⟨"Fx0A", 0xF0FF, 0xF00A⟩, ⟨"Fx15", 0xF0FF, 0xF015⟩,
   ⟨"Fx18", 0xF0FF, 0xF018⟩, ⟨"Fx1E", 0xF0FF, 0xF01E⟩, ⟨"Fx29", 0xF0FF, 0xF029⟩,
   ⟨"Fx33", 0xF0FF, 0xF033⟩, ⟨"Fx55", 0xF0FF, 0xF055⟩, ⟨"Fx65", 0xF0FF, 0xF065⟩]

/-- The whole opcode map, 34 rows (R95). -/
def opcodeRows : List OpcodeRow := opcodeRows1 ++ opcodeRows2 ++ opcodeRows3 ++ opcodeRows4

/-- A word is well formed when it belongs to a row of the opcode map; every other word is illegal (R101). -/
def wordWellFormed (w : Word) : Bool := opcodeRows.any (·.holds w)

/-- An instruction is well formed when each operand fits its field (R92). The types of the fields already hold the
ranges, so every term passes; the check is written out so that a wider field type would be caught by it. -/
def Instr.wellFormed : Instr → Bool
  | .cls | .ret => true
  | .jp nnn | .call nnn | .ldI nnn | .jpV0 nnn => nnn.toNat ≤ 0xFFF
  | .seImm x nn | .sneImm x nn | .ldImm x nn | .addImm x nn | .rnd x nn => x.val ≤ 15 && nn.toNat ≤ 0xFF
  | .seReg x y | .sneReg x y | .ldReg x y | .orReg x y | .andReg x y | .xorReg x y | .addReg x y
  | .subReg x y | .shr x y | .subnReg x y | .shl x y => x.val ≤ 15 && y.val ≤ 15
  | .drw x y n => x.val ≤ 15 && y.val ≤ 15 && n.val ≤ 15
  | .skp x | .sknp x | .ldVxDT x | .ldVxK x | .ldDTVx x | .ldSTVx x | .addI x | .ldF x | .ldB x
  | .storeRegs x | .loadRegs x => x.val ≤ 15

end Sys2Proof
end

