-- ==== Sys2Proof/Decode.lean ====
section
/-! DEFINITION. Decoding, total on any bytes and rejecting by name (rules R91 to R102 of 30_encoding.md), and after it
the encoder, written from the same patterns of R93 and R95. -/

namespace Sys2Proof

/-- Why bytes are no instruction. Each kind of illegal word of R101 has its own name and holds the word. -/
inductive Reject where
  /-- Fewer than two bytes (R92: every instruction is two bytes). -/
  | tooShort
  /-- Category 0, and not the exact word 0x00E0 or 0x00EE (R96). -/
  | category0 (op : Word)
  /-- Category 5 or 9 with a low nibble that is not 0 (R100). -/
  | skipNibble (op : Word)
  /-- Category 8 with `n` in 8 to 0xD or 0xF (R97). -/
  | aluNibble (op : Word)
  /-- Category E with `nn` not 0x9E or 0xA1 (R98). -/
  | keyByte (op : Word)
  /-- Category F with `nn` not one of the nine values (R99). -/
  | miscByte (op : Word)
  deriving DecidableEq, Repr

/-! The fields of a word (R92). -/

/-- `category = op[15:12]`. -/
def fieldCategory (op : Word) : BitVec 4 := op.extractLsb' 12 4
/-- `x = op[11:8]`. -/
def fieldX (op : Word) : RegIdx := (op.extractLsb' 8 4).toFin
/-- `y = op[7:4]`. -/
def fieldY (op : Word) : RegIdx := (op.extractLsb' 4 4).toFin
/-- `n = op[3:0]`. -/
def fieldN (op : Word) : Fin 16 := (op.extractLsb' 0 4).toFin
/-- `nn = op[7:0]`. -/
def fieldNN (op : Word) : Byte := op.extractLsb' 0 8
/-- `nnn = op[11:0]`. -/
def fieldNNN (op : Word) : Imm12 := op.extractLsb' 0 12

/-- Category 0: the discriminant is the whole word (R96). -/
def decodeCategory0 (op : Word) : Except Reject Instr :=
  if op = 0x00E0#16 then .ok .cls
  else if op = 0x00EE#16 then .ok .ret
  else .error (.category0 op)

/-- Category 8: the discriminant is `n` (R97). -/
def decodeCategory8 (op : Word) : Except Reject Instr :=
  let x := fieldX op
  let y := fieldY op
  match (fieldN op).val with
  | 0x0 => .ok (.ldReg x y)
  | 0x1 => .ok (.orReg x y)
  | 0x2 => .ok (.andReg x y)
  | 0x3 => .ok (.xorReg x y)
  | 0x4 => .ok (.addReg x y)
  | 0x5 => .ok (.subReg x y)
  | 0x6 => .ok (.shr x y)
  | 0x7 => .ok (.subnReg x y)
  | 0xE => .ok (.shl x y)
  | _   => .error (.aluNibble op)

/-- Category E: the discriminant is `nn` (R98). -/
def decodeCategoryE (op : Word) : Except Reject Instr :=
  match (fieldNN op).toNat with
  | 0x9E => .ok (.skp (fieldX op))
  | 0xA1 => .ok (.sknp (fieldX op))
  | _    => .error (.keyByte op)

/-- Category F: the discriminant is `nn` (R99). -/
def decodeCategoryF (op : Word) : Except Reject Instr :=
  let x := fieldX op
  match (fieldNN op).toNat with
  | 0x07 => .ok (.ldVxDT x)
  | 0x0A => .ok (.ldVxK x)
  | 0x15 => .ok (.ldDTVx x)
  | 0x18 => .ok (.ldSTVx x)
  | 0x1E => .ok (.addI x)
  | 0x29 => .ok (.ldF x)
  | 0x33 => .ok (.ldB x)
  | 0x55 => .ok (.storeRegs x)
  | 0x65 => .ok (.loadRegs x)
  | _    => .error (.miscByte op)

/-- Categories 5 and 9: the low nibble must be 0 (R100). -/
def decodeSkipReg (i : Instr) (op : Word) : Except Reject Instr :=
  if fieldN op = 0 then .ok i else .error (.skipNibble op)

/-- Dispatch on the category, then on the secondary discriminant (R95). The last arm is category F, the only category
left. -/
def decodeWord (op : Word) : Except Reject Instr :=
  match (fieldCategory op).toNat with
  | 0x0 => decodeCategory0 op
  | 0x1 => .ok (.jp (fieldNNN op))
  | 0x2 => .ok (.call (fieldNNN op))
  | 0x3 => .ok (.seImm (fieldX op) (fieldNN op))
  | 0x4 => .ok (.sneImm (fieldX op) (fieldNN op))
  | 0x5 => decodeSkipReg (.seReg (fieldX op) (fieldY op)) op
  | 0x6 => .ok (.ldImm (fieldX op) (fieldNN op))
  | 0x7 => .ok (.addImm (fieldX op) (fieldNN op))
  | 0x8 => decodeCategory8 op
  | 0x9 => decodeSkipReg (.sneReg (fieldX op) (fieldY op)) op
  | 0xA => .ok (.ldI (fieldNNN op))
  | 0xB => .ok (.jpV0 (fieldNNN op))
  | 0xC => .ok (.rnd (fieldX op) (fieldNN op))
  | 0xD => .ok (.drw (fieldX op) (fieldY op) (fieldN op))
  | 0xE => decodeCategoryE op
  | _   => decodeCategoryF op

/-- The 16-bit word of two bytes in memory order, the first in the high half (R62, R91). -/
def wordOfBytes (hi lo : Byte) : Word := hi ++ lo

/-- Decode the instruction at the head of a list of bytes and return the bytes after it. -/
def decode : List Byte → Except Reject (Instr × List Byte)
  | hi :: lo :: rest =>
    match decodeWord (wordOfBytes hi lo) with
    | .ok i => .ok (i, rest)
    | .error r => .error r
  | _ => .error .tooShort

/-- The host's reading: `w` numbers the bits of the instruction as the opcode table does (one 16-bit word, bit 0 its
least significant bit), and the bits above `nbits` are 0. The word is laid out high byte first (R62) and decoded. -/
def decodeTableWord (nbits w : Nat) : Option Instr :=
  let word : Word := BitVec.ofNat 16 (w % 2 ^ nbits)
  match decode [word.extractLsb' 8 8, word.extractLsb' 0 8] with
  | .ok (i, _) => some i
  | .error _ => none

/-! The encoder: the bit patterns of R95, each field in the place of R93. -/

/-- A register index or the row count as a 4-bit field. -/
def nibble (k : Fin 16) : BitVec 4 := BitVec.ofFin k

/-- Format NNN of R93. -/
def formatNNN (category : BitVec 4) (nnn : Imm12) : Word := category ++ nnn
/-- Format XNN of R93. -/
def formatXNN (category : BitVec 4) (x : RegIdx) (nn : Byte) : Word := category ++ nibble x ++ nn
/-- Formats XY and XYN of R93: the low nibble is a secondary opcode or `n`. -/
def formatXYN (category : BitVec 4) (x y : RegIdx) (n : BitVec 4) : Word := category ++ nibble x ++ nibble y ++ n

/-- The word of an instruction (R95). -/
def encode : Instr → Word
  | .cls => 0x00E0#16
  | .ret => 0x00EE#16
  | .jp nnn => formatNNN 0x1#4 nnn
  | .call nnn => formatNNN 0x2#4 nnn
  | .seImm x nn => formatXNN 0x3#4 x nn
  | .sneImm x nn => formatXNN 0x4#4 x nn
  | .seReg x y => formatXYN 0x5#4 x y 0x0#4
  | .ldImm x nn => formatXNN 0x6#4 x nn
  | .addImm x nn => formatXNN 0x7#4 x nn
  | .ldReg x y => formatXYN 0x8#4 x y 0x0#4
  | .orReg x y => formatXYN 0x8#4 x y 0x1#4
  | .andReg x y => formatXYN 0x8#4 x y 0x2#4
  | .xorReg x y => formatXYN 0x8#4 x y 0x3#4
  | .addReg x y => formatXYN 0x8#4 x y 0x4#4
  | .subReg x y => formatXYN 0x8#4 x y 0x5#4
  | .shr x y => formatXYN 0x8#4 x y 0x6#4
  | .subnReg x y => formatXYN 0x8#4 x y 0x7#4
  | .shl x y => formatXYN 0x8#4 x y 0xE#4
  | .sneReg x y => formatXYN 0x9#4 x y 0x0#4
  | .ldI nnn => formatNNN 0xA#4 nnn
  | .jpV0 nnn => formatNNN 0xB#4 nnn
  | .rnd x nn => formatXNN 0xC#4 x nn
  | .drw x y n => formatXYN 0xD#4 x y (nibble n)
  | .skp x => formatXNN 0xE#4 x 0x9E#8
  | .sknp x => formatXNN 0xE#4 x 0xA1#8
  | .ldVxDT x => formatXNN 0xF#4 x 0x07#8
  | .ldVxK x => formatXNN 0xF#4 x 0x0A#8
  | .ldDTVx x => formatXNN 0xF#4 x 0x15#8
  | .ldSTVx x => formatXNN 0xF#4 x 0x18#8
  | .addI x => formatXNN 0xF#4 x 0x1E#8
  | .ldF x => formatXNN 0xF#4 x 0x29#8
  | .ldB x => formatXNN 0xF#4 x 0x33#8
  | .storeRegs x => formatXNN 0xF#4 x 0x55#8
  | .loadRegs x => formatXNN 0xF#4 x 0x65#8

/-- The two bytes of an instruction in memory order (R62). -/
def encodeBytes (i : Instr) : List Byte := [(encode i).extractLsb' 8 8, (encode i).extractLsb' 0 8]

end Sys2Proof
end

