-- ==== Sys2Proof/Config.lean ====
section
/-! DEFINITION. What is fixed for the machine (the sizes of rule R8), the type and the default of the parameter `FONT`
(R68), the events the environment can send (R6, R45), and the free value that stands for the environment's choice. -/

namespace Sys2Proof

/-- The three events (R6, R45). `step` carries the keypad snapshot and the random byte of R7, `load` a ROM image. -/
inductive Event where
  /-- `step(keys, rnd)`, R90. -/
  | step (keys : Word) (rnd : Byte)
  /-- `timer_tick`, R221. -/
  | timerTick
  /-- `load(rom)`, R280. -/
  | load (rom : List Byte)
  deriving DecidableEq, Repr, Inhabited

/-- A value of the parameter `FONT`: 80 bytes (R8, R68). -/
abbrev Font := Vector Byte 80

namespace Config

/-- The size of memory, addresses 0x000 to 0xFFF (R8, R60). -/
def memSize : Nat := 4096
/-- The highest address of memory (R12, R71). -/
def lastAddress : Nat := 0xFFF
/-- Where `load` puts the ROM image, and the reset value of `pc` (R8, R66). -/
def programBase : Nat := 0x200
/-- The maximum ROM length, 4096 - 512 (R8, R50). -/
def maxRom : Nat := 3584

/-- The glyphs of digits 0 to 7, in the default of the parameter `FONT` (R68).
PRESUMED, unsafe: the spec gives these bytes "[from general knowledge, not in source]" (log entry 10). -/
def fontLow : List Byte :=
  [0xF0, 0x90, 0x90, 0x90, 0xF0] ++ [0x20, 0x60, 0x20, 0x20, 0x70] ++
  [0xF0, 0x10, 0xF0, 0x80, 0xF0] ++ [0xF0, 0x10, 0xF0, 0x10, 0xF0] ++
  [0x90, 0x90, 0xF0, 0x10, 0x10] ++ [0xF0, 0x80, 0xF0, 0x10, 0xF0] ++
  [0xF0, 0x80, 0xF0, 0x90, 0xF0] ++ [0xF0, 0x10, 0x20, 0x40, 0x40]

/-- The glyphs of digits 8 to F (R68). PRESUMED, unsafe, as `fontLow` (log entry 10). -/
def fontHigh : List Byte :=
  [0xF0, 0x90, 0xF0, 0x90, 0xF0] ++ [0xF0, 0x90, 0xF0, 0x10, 0xF0] ++
  [0xF0, 0x90, 0xF0, 0x90, 0x90] ++ [0xE0, 0x90, 0xE0, 0x90, 0xE0] ++
  [0xF0, 0x80, 0x80, 0x80, 0xF0] ++ [0xE0, 0x90, 0x90, 0x90, 0xE0] ++
  [0xF0, 0x80, 0xF0, 0x80, 0xF0] ++ [0xF0, 0x80, 0xF0, 0x80, 0x80]

/-- The default of the parameter `FONT` (R68), five bytes for each hexadecimal digit (R67). `FONT` is open (R8): a machine
with any other font is a state with another `Memory.font` (log entry 10). -/
def defaultFont : Font := ⟨(fontLow ++ fontHigh).toArray, rfl⟩

/-- FREE VALUE: the `k`-th event that the environment sends when no event is queued. The spec fixes neither the order of
events nor the arguments `keys`, `rnd` and `rom` (R7, R224), so nothing constrains this value (log entry 2). -/
opaque freeEvent : Nat → Event

end Config

end Sys2Proof
end

