-- ==== Sys2Proof/Machine/State.lean ====
section
/-! DEFINITION. The state of the machine as plain data (10_state.md), the reasons a run can stop, and the state after
reset (rule R40). -/

namespace Sys2Proof.Machine

/-- Running, or waiting for a key press whose index goes to register `t` (R33). -/
inductive Status where
  | running
  | awaitingKey (t : RegIdx)
  deriving DecidableEq, Repr

/-- The six causes of a fault of a running machine (R231 to R236). -/
inductive FaultCause where
  | decodeError
  | stackOverflow
  | stackUnderflow
  | fetchOutOfBounds
  | dataOutOfBounds
  | keyIndexOutOfRange
  deriving DecidableEq, Repr

/-- The fault record of R240. `pc0` is the address of the faulting instruction, `op` the fetched word, `info` the
recorded value of R238. -/
structure FaultRecord where
  cause : FaultCause
  pc0   : Word
  op    : Word
  info  : Nat
  deriving DecidableEq, Repr

/-- The call stack, 16 entries of 16 bits (R28). -/
abbrev Stack := Vector Word 16

/-- The general registers V0 to VF (R20). -/
abbrev RegFile := Vector Byte 16

/-- The framebuffer: 2048 one-bit pixels; the pixel at row `r`, column `c` is element `r * 64 + c` (R31, R32). It is read
and written through `Framebuffer.pixel` and `Framebuffer.xorPixel` only (log entry 13). -/
abbrev Framebuffer := BitVec 2048

/-- Memory (R60): the list of the bytes that differ from what an unlisted address reads as, in one canonical form
(`Memory.wf`: addresses strictly rising, below 4096, no entry equal to `Memory.blank`), and the parameter `FONT` (R8, R68),
which an unlisted address below 0x050 reads as. `FONT` is an argument of the machine, not state (R39); it stands here
because `step` has no other argument, and no event changes it (log entry 10). -/
structure Memory where
  /-- The parameter `FONT`, which `load` copies to 0x000 to 0x04F (R8, R280). -/
  font : Font
  /-- The listed bytes. -/
  cells : List Host.Cell
  deriving DecidableEq, Repr

/-- The ports of the machine (R45 to R47) and the environment's queue. The spec keeps none of this as state (R39, R46);
it stands in State because `step` has no other argument and no other result (log entries 1 to 4). -/
structure Io where
  /-- The `keys` argument of the step being executed (R7, R47). -/
  keys : Word
  /-- The `rnd` argument of the step being executed (R7). -/
  rnd : Byte
  /-- The `redraw` output of the last step (R46). -/
  redraw : Bool
  /-- The `sound_active` output of the last step (R46). -/
  soundActive : Bool
  /-- Events the environment has already chosen, oldest first. -/
  events : List Event
  /-- How many free events have been drawn so far. -/
  drawn : Nat
  deriving DecidableEq, Repr

/-- The state of the machine: the table of R40, with `sp` held as `depth = sp + 1` (R27), and the ports. -/
structure State where
  /-- General registers (R20). -/
  V : RegFile
  /-- Index register (R26). -/
  I : Word
  /-- Program counter (R24). -/
  pc : Word
  /-- The number of stack entries in use, `sp + 1` (R27). -/
  depth : Fin 17
  /-- Call stack (R28). -/
  stack : Stack
  /-- Delay timer (R29). -/
  DT : Byte
  /-- Sound timer (R30). -/
  ST : Byte
  /-- Framebuffer (R31). -/
  FB : Framebuffer
  /-- Memory (R37, R60). -/
  mem : Memory
  /-- Running or waiting for a key (R33). -/
  status : Status
  /-- The keypad snapshot of the previous step of the current wait (R34). -/
  prevKeys : Word
  /-- The recorded fault (R35). -/
  fault : Option FaultRecord
  /-- Whether a `load` has succeeded, so that the machine exists (R282). -/
  loaded : Bool
  /-- The ports and the environment's queue. -/
  io : Io
  deriving DecidableEq, Repr

/-- Reasons for which the machine stops. The six faults of a running machine are NOT among them: the spec gives their
entry and the aborted state (R241, R242), so they lead to a next state with `State.fault` set (log entry 5). -/
inductive Fault where
  /-- `RomTooLarge(L)`, code 7 (R237): raised by the event `load` with a ROM image of `L > 3584` bytes. "A refused `load`
  creates no machine", so there is no next state. Safe: the run stops (log entry 7). -/
  | romTooLarge (length : Nat)
  deriving DecidableEq, Repr

/-- Reasons for which the model gives no meaning. -/
inductive Refusal where
  /-- An instruction that has no meaning yet, rejected by name in `exec`. Raised by no arm of this model. Safe. -/
  | notModelled (mnemonic : String)
  /-- `step` or `timer_tick` before any `load` has succeeded: "a model refuses them" (R282). Raised by the events `step`
  and `timer_tick` when `State.loaded` is false. Safe: the run stops (log entry 8). -/
  | noMachine
  deriving DecidableEq, Repr

/-- The ports before any event: no queued event, no draw, no output (log entries 1 to 4). -/
def Io.reset : Io :=
  { keys := 0, rnd := 0, redraw := false, soundActive := false, events := [], drawn := 0 }

/-- The state right after reset: the table of R40, with an empty ROM image (R281; log entry 9) and the default
of the parameter `FONT` (R68; log entry 10). Memory lists nothing: an unlisted address reads as the font below 0x050 and as
0x00 elsewhere. -/
def State.reset : State :=
  { V := Vector.replicate 16 0
    I := 0x0000
    pc := 0x0200
    depth := 0
    stack := Vector.replicate 16 0
    DT := 0x00
    ST := 0x00
    FB := 0
    mem := { font := Config.defaultFont, cells := [] }
    status := .running
    prevKeys := 0x0000
    fault := none
    loaded := true
    io := Io.reset }

end Sys2Proof.Machine
end

