-- ==== Sys2Proof/Machine/Ops.lean ====
section
/-! DEFINITION. The named operations over memory, registers, framebuffer, stack and timers; taking a fault as one shared
operation, and `load`, the only way out of it; fetching the bytes of an instruction. -/

namespace Sys2Proof.Machine

/-! ## Memory (20_memory.md) -/

/-- What an unlisted address reads as, with `font` the parameter `FONT`: the contents after a `load` with an empty ROM, `FONT`
at 0x000 to 0x04F and 0x00 elsewhere (R40, R66; log entry 11). -/
def Memory.blank (font : Font) (a : Nat) : Byte := if h : a < 80 then font[a] else 0x00

/-- The byte at `a` in a list of cells over the font `font`. -/
def readCells (font : Font) : List Host.Cell → Nat → Byte
  | [], a => Memory.blank font a
  | (b, w) :: rest, a => if a = b then w else readCells font rest a

/-- The cells after `v` is written at `a`, in the canonical form: a byte that an unlisted address would read as is not
listed. -/
def writeCells (font : Font) : List Host.Cell → Nat → Byte → List Host.Cell
  | [], a, v => if v = Memory.blank font a then [] else [(a, v)]
  | (b, w) :: rest, a, v =>
    if a < b then (if v = Memory.blank font a then (b, w) :: rest else (a, v) :: (b, w) :: rest)
    else if a = b then (if v = Memory.blank font a then rest else (a, v) :: rest)
    else (b, w) :: writeCells font rest a v

/-- The canonical form of a list of cells: addresses rise strictly and are below 4096 (R60), and no entry equals what an
unlisted address reads as. -/
def cellsWf (font : Font) : List Host.Cell → Bool
  | [] => true
  | (a, v) :: rest =>
    decide (a < Config.memSize) && (v != Memory.blank font a) && rest.all (fun c => decide (a < c.1)) && cellsWf font rest

/-- `MemRead(a, 1)` (R12). Every rule tests its addresses first, so this is used for `a ≤ 0xFFF` only. -/
def Memory.read (m : Memory) (a : Nat) : Byte := readCells m.font m.cells a

/-- `MemWrite(a, 1, v)` (R12). -/
def Memory.write (m : Memory) (a : Nat) (v : Byte) : Memory := { m with cells := writeCells m.font m.cells a v }

/-- Bytes at ascending addresses from `a` (R63). -/
def Memory.writeBytes : Memory → Nat → List Byte → Memory
  | m, _, [] => m
  | m, a, v :: vs => Memory.writeBytes (m.write a v) (a + 1) vs

/-- The canonical form of a memory. -/
def Memory.wf (m : Memory) : Bool := cellsWf m.font m.cells

/-- Memory after `load` has copied `FONT` to 0x000 and the ROM image to 0x200 (R280). -/
def Memory.ofRom (font : Font) (rom : List Byte) : Memory :=
  Memory.writeBytes { font := font, cells := [] } Config.programBase rom

/-! ## Registers and program counter -/

/-- `V[x]` (R11). No register is hard-wired (R20). -/
def State.reg (s : State) (x : RegIdx) : Byte := s.V[x.val]

/-- `V[x] <- v` (R11). -/
def State.setReg (s : State) (x : RegIdx) (v : Byte) : State := { s with V := s.V.set x.val v }

/-- The index of VF (R22). -/
def vf : RegIdx := 15

/-- `pc <- target` (R14). -/
def State.setPc (s : State) (target : Word) : State := { s with pc := target }

/-- The value of `pc` that an instruction sees, `pc0 + 2` (R14, R91). -/
def State.nextPc (s : State) : Word := s.pc + 2

/-- The advance of `pc` over the instruction being executed (R91). -/
def State.advance (s : State) : State := { s with pc := s.pc + 2 }

/-- The advance of `pc` in a skip instruction: 2, and 2 more when the condition holds (R25, R139). -/
def State.advanceSkipIf (s : State) (c : Bool) : State := { s with pc := s.pc + 2 + (if c then 2 else 0) }

/-- `I <- a` (R26). -/
def State.setI (s : State) (a : Word) : State := { s with I := a }

/-- `DT <- v` (R29). -/
def State.setDT (s : State) (v : Byte) : State := { s with DT := v }

/-- `ST <- v` (R30). -/
def State.setST (s : State) (v : Byte) : State := { s with ST := v }

/-- Replace memory. -/
def State.setMem (s : State) (m : Memory) : State := { s with mem := m }

/-- Replace the whole register file. -/
def State.setV (s : State) (v : RegFile) : State := { s with V := v }

/-- Replace the framebuffer and report a redraw (R46, R120, R121). -/
def State.display (s : State) (fb : Framebuffer) : State := { s with FB := fb, io := { s.io with redraw := true } }

/-- `sp`, -1 when the stack is empty (R27). -/
def State.sp (s : State) : Int := (s.depth.val : Int) - 1

/-! ## Framebuffer (R31, R32) -/

/-- `FB[r][c]`, element `r * 64 + c` (R32). -/
def Framebuffer.pixel (fb : Framebuffer) (r c : Nat) : Bool := fb.getLsbD (r * 64 + c)

/-- `FB[r][c] <- FB[r][c] ^ b`. -/
def Framebuffer.xorPixel (fb : Framebuffer) (r c : Nat) (b : Bool) : Framebuffer :=
  fb ^^^ ((BitVec.ofBool b).setWidth 2048 <<< (r * 64 + c))

/-! ## Outputs -/

/-- `sound_active`, `ST != 0` (R46, R49, R222). -/
def State.soundActive (s : State) : Bool := decide (s.ST ≠ 0)

/-- The ports at the start of a step: its arguments, and `redraw <- 0` (R90). -/
def State.latch (s : State) (keys : Word) (rnd : Byte) : State :=
  { s with io := { s.io with keys := keys, rnd := rnd, redraw := false } }

/-- The result of a step, read after its effects: `sound_active` (R46, R90). -/
def State.report (s : State) : State := { s with io := { s.io with soundActive := s.soundActive } }

/-! ## Faults (60_exceptions.md) -/

/-- The cause codes of a running machine (R231 to R236, R238). -/
def FaultCause.code : FaultCause → Nat
  | .decodeError => 1
  | .stackOverflow => 2
  | .stackUnderflow => 3
  | .fetchOutOfBounds => 4
  | .dataOutOfBounds => 5
  | .keyIndexOutOfRange => 6

/-- The code of the refusal of `load` (R237, R238). -/
def Fault.code : Fault → Nat
  | .romTooLarge _ => 7

/-- The code of what a state records, 0 when there is no fault (R238). -/
def State.faultCode (s : State) : Nat :=
  match s.fault with
  | none => 0
  | some f => f.cause.code

/-- TAKING A FAULT (R13, R240, R241): the record is set, with `pc0` the address of the instruction, and nothing else
changes: `pc` stays at `pc0`, no mode changes, control goes nowhere. There is no return from a fault (R243); the only
way out is `State.load`. -/
def State.raise (s : State) (cause : FaultCause) (op : Word) (info : Nat) : State :=
  { s with fault := some { cause := cause, pc0 := s.pc, op := op, info := info } }

/-- `load(rom)` (R280): the reset state with the ROM image in memory, from any state. It replaces all the machine's state;
the parameter `FONT` is its argument (R39), and the environment's queue is not the machine's and stays (log entries 9, 10). A ROM of more than 3584 bytes is refused with
RomTooLarge (R237). -/
def State.load (s : State) (rom : List Byte) : Host.Outcome State Fault Refusal :=
  if rom.length > Config.maxRom then .fault (.romTooLarge rom.length)
  else .next { State.reset with
    mem := Memory.ofRom s.mem.font rom
    io := { s.io with redraw := false, soundActive := false } }

/-! ## Timers (45_timers.md) -/

/-- One timer, counted toward 0 and stopping there (R221). -/
def countDown (t : Byte) : Byte := if t = 0 then 0 else t - 1

/-- `timer_tick` (R221): nothing while `fault` is set; else each timer on its own. -/
def State.tick (s : State) : State :=
  match s.fault with
  | some _ => s
  | none => { s with DT := countDown s.DT, ST := countDown s.ST }

/-! ## Key wait (44_keypad.md) -/

/-- The key indexes in rising order. -/
def keyIndexes : List RegIdx := [0, 1, 2, 3, 4, 5, 6, 7, 8, 9, 10, 11, 12, 13, 14, 15]

/-- The least `k` with `edges[k] = 1`, if there is one (R203). -/
def firstKey (edges : Word) : Option RegIdx := keyIndexes.find? (fun k => edges.getLsbD k.val)

/-- One poll while `status = AwaitingKey(t)` (R203, R204). `keys` is the snapshot of this step. -/
def State.poll (s : State) (t : RegIdx) : State :=
  let edges := s.io.keys &&& ~~~s.prevKeys
  let s1 := { s with prevKeys := s.io.keys }
  match firstKey edges with
  | none => s1
  | some k => { (s1.setReg t (BitVec.ofNat 8 k.val)).advance with status := .running }

/-! ## Fetch (R91) -/

/-- Whether `pc` and `pc + 1` are addresses of memory (R91, R234). -/
def State.canFetch (s : State) : Bool := decide (s.pc.toNat ≤ 0xFFE)

/-- The two bytes at `pc`, first the one at `pc` (R62). -/
def State.fetchBytes (s : State) : List Byte := [s.mem.read s.pc.toNat, s.mem.read (s.pc.toNat + 1)]

/-- `op`, the word of the two bytes at `pc`, high byte first (R62, R91). -/
def State.fetchWord (s : State) : Word := wordOfBytes (s.mem.read s.pc.toNat) (s.mem.read (s.pc.toNat + 1))

end Sys2Proof.Machine
end

