-- ==== Sys2Proof/Machine/Flags.lean ====
section
/-! DEFINITION. The values that the flag-writing instructions give VF, the table of R23, and the order of the two writes
of R151. There is no other flag (R22). -/

namespace Sys2Proof.Machine

/-- A flag as the whole byte 0x00 or 0x01 (R23). -/
def flagByte (b : Bool) : Byte := if b then 0x01 else 0x00

/-- Carry out of the 8-bit sum: the 9-bit sum exceeds 0xFF (R23, R158). -/
def carryOut (a b : Byte) : Bool := decide (a.toNat + b.toNat > 0xFF)

/-- The flag of a subtraction: `a > b`, strictly and unsigned (R23, R159, R161; log entry 16). -/
def strictlyAbove (a b : Byte) : Bool := decide (a.toNat > b.toNat)

/-- The bit shifted out to the right, bit 0 (R23, R160). -/
def shiftedOutRight (a : Byte) : Bool := a.getLsbD 0

/-- The bit shifted out to the left, bit 7 (R23, R162; log entry 17). -/
def shiftedOutLeft (a : Byte) : Bool := a.getLsbD 7

/-- Write the result to `V[x]`, then the flag to VF: with `x = 15` the flag stays (R151; log entry 18). -/
def State.setResultAndFlag (s : State) (x : RegIdx) (result : Byte) (flag : Bool) : State :=
  (s.setReg x result).setReg vf (flagByte flag)

end Sys2Proof.Machine
end

