-- ==== Sys2Proof/Machine/Operands.lean ====
section
/-! DEFINITION. Operand forms: the effective addresses of R71 and R186 and their bounds test, the byte sequences that
instructions move, and the sprite of R122. Registers and immediates are read with `State.reg` and `zext16`; no
immediate is sign-extended, scaled or shifted (R94). -/

namespace Sys2Proof.Machine

/-- The effective address `zext(I) + k`, an unbounded integer (R71, R186). -/
def State.dataAddr (s : State) (k : Nat) : Nat := s.I.toNat + k

/-- Run `body` if the highest data address `zext(I) + k` of instruction `i` is in memory; else take `DataOutOfBounds` with
that address, before any access (R71, R235). -/
def State.withData (s : State) (i : Instr) (k : Nat) (body : State) : Host.Outcome State Fault Refusal :=
  if s.dataAddr k > Config.lastAddress then .next (s.raise .dataOutOfBounds (encode i) (s.dataAddr k))
  else .next body

/-- Run `body` if `k` is the index of a key; else take `KeyIndexOutOfRange` (R200, R201, R236). -/
def State.withKey (s : State) (i : Instr) (k : Byte) (body : State) : Host.Outcome State Fault Refusal :=
  if k.toNat > 15 then .next (s.raise .keyIndexOutOfRange (encode i) k.toNat)
  else .next body

/-- Bit `k` of the keypad snapshot of this step (R47). -/
def State.keyHeld (s : State) (k : Byte) : Bool := s.io.keys.getLsbD k.toNat

/-- The three decimal digits of a byte: hundreds, tens, ones (R150, R183). -/
def bcdDigits (v : Byte) : List Byte :=
  [BitVec.ofNat 8 (v.toNat / 100), BitVec.ofNat 8 (v.toNat / 10 % 10), BitVec.ofNat 8 (v.toNat % 10)]

/-- `V[0]` to `V[x]`, in ascending order (R184). -/
def State.regsUpTo (s : State) (x : RegIdx) : List Byte := s.V.toList.take (x.val + 1)

/-- The register file with `V[0]` to `V[k - 1]` loaded from memory at `a` onward, in ascending order (R185). -/
def loadRegFile (m : Memory) (a : Nat) (v : RegFile) : Nat → RegFile
  | 0 => v
  | k + 1 => (loadRegFile m a v k).setIfInBounds k (m.read (a + k))

/-- Bit `c` of a sprite row counted from the left: bit 7 is the leftmost column (R121, R122).
PRESUMED, unsafe: R122 takes the bit order "[from general knowledge, not in source]" (log entry 14). -/
def spriteBit (b : Byte) (c : Nat) : Bool := b.getLsbD (7 - c)

end Sys2Proof.Machine
end

