-- ==== Sys2Proof/Machine/ControlFlow.lean ====
section
/-! DEFINITION. Control transfer (41_control_flow.md). No target is tested when the transfer executes (R138). -/

namespace Sys2Proof.Machine

/-- `00EE` (R130): take the top entry as `pc`; `StackUnderflow` on an empty stack. The popped cell keeps its value (R28). -/
def execRet (s : State) : Host.Outcome State Fault Refusal :=
  if h : s.depth.val = 0 then .next (s.raise .stackUnderflow (encode .ret) 0)
  else .next { s with
    pc := s.stack[s.depth.val - 1]
    depth := ⟨s.depth.val - 1, by omega⟩ }

/-- `1nnn` (R131). -/
def execJp (nnn : Imm12) (s : State) : Host.Outcome State Fault Refusal :=
  .next (s.setPc (zext16 nnn))

/-- `2nnn` (R132): push the address after the call, then jump; `StackOverflow` with 16 entries in use. -/
def execCall (nnn : Imm12) (s : State) : Host.Outcome State Fault Refusal :=
  if h : s.depth.val = 16 then .next (s.raise .stackOverflow (encode (.call nnn)) 0)
  else .next { s with
    stack := s.stack.set s.depth.val s.nextPc
    depth := ⟨s.depth.val + 1, by omega⟩
    pc := zext16 nnn }

/-- `3xnn` (R133). -/
def execSeImm (x : RegIdx) (nn : Byte) (s : State) : Host.Outcome State Fault Refusal :=
  .next (s.advanceSkipIf (s.reg x == nn))

/-- `4xnn` (R134). -/
def execSneImm (x : RegIdx) (nn : Byte) (s : State) : Host.Outcome State Fault Refusal :=
  .next (s.advanceSkipIf (s.reg x != nn))

/-- `5xy0` (R135). -/
def execSeReg (x y : RegIdx) (s : State) : Host.Outcome State Fault Refusal :=
  .next (s.advanceSkipIf (s.reg x == s.reg y))

/-- `9xy0` (R136). -/
def execSneReg (x y : RegIdx) (s : State) : Host.Outcome State Fault Refusal :=
  .next (s.advanceSkipIf (s.reg x != s.reg y))

/-- `Bnnn` (R137): the register is always V0; the sum is not reduced to 12 bits. -/
def execJpV0 (nnn : Imm12) (s : State) : Host.Outcome State Fault Refusal :=
  .next (s.setPc (zext16 (s.reg 0) + zext16 nnn))

end Sys2Proof.Machine
end

