-- ==== Sys2Proof/Machine/Display.lean ====
section
/-! DEFINITION. The display instructions `00E0` and `Dxyn` (40_display.md). -/

namespace Sys2Proof.Machine

/-- `00E0` (R120): all pixels off, a redraw is reported. -/
def execCls (s : State) : Host.Outcome State Fault Refusal :=
  .next (s.display 0).advance

/-- What a draw builds up: the framebuffer and the collision so far (R121). -/
structure Canvas where
  fb  : Framebuffer
  hit : Bool
  deriving DecidableEq, Repr

/-- One pixel of a sprite at row `row`, column `col` (R121): skipped beyond column 63, else XORed; a pixel that goes from
on to off is a collision. -/
def Canvas.drawPixel (c : Canvas) (row col : Nat) (s : Bool) : Canvas :=
  if col ≤ 63 then { fb := c.fb.xorPixel row col s, hit := c.hit || (c.fb.pixel row col && s) } else c

/-- The first `k` columns of one sprite row, in ascending order (R121). -/
def Canvas.drawRow (c : Canvas) (b : Byte) (row x0 : Nat) : Nat → Canvas
  | 0 => c
  | k + 1 => (c.drawRow b row x0 k).drawPixel row (x0 + k) (spriteBit b k)

/-- The first `r` rows of a sprite at memory address `a`, in ascending order, at origin `(x0, y0)` (R121, R122). -/
def Canvas.drawRows (c : Canvas) (m : Memory) (a x0 y0 : Nat) : Nat → Canvas
  | 0 => c
  | r + 1 => (c.drawRows m a x0 y0 r).drawRow (m.read (a + r)) (y0 + r) x0 8

/-- How many of `n` rows are on the screen from row `y0` on (R121). -/
def visibleRows (n y0 : Nat) : Nat := min n (32 - y0)

/-- The starting column `V[x] mod 64` (R121). -/
def State.originCol (s : State) (x : RegIdx) : Nat := (s.reg x).toNat % 64

/-- The starting row `V[y] mod 32` (R121). -/
def State.originRow (s : State) (y : RegIdx) : Nat := (s.reg y).toNat % 32

/-- The state after a draw of `rows` visible rows that are all in memory (R121): the origin is read before VF is written,
and VF is written last. -/
def State.draw (s : State) (x y : RegIdx) (rows : Nat) : State :=
  let c := Canvas.drawRows { fb := s.FB, hit := false } s.mem s.I.toNat (s.originCol x) (s.originRow y) rows
  ((s.display c.fb).setReg vf (flagByte c.hit)).advance

/-- `Dxyn` (R121): rows off the screen are not read and cannot fault. -/
def execDrw (x y : RegIdx) (n : Fin 16) (s : State) : Host.Outcome State Fault Refusal :=
  match visibleRows n.val (s.originRow y) with
  | 0 => .next (s.draw x y 0)
  | r + 1 => s.withData (.drw x y n) r (s.draw x y (r + 1))

end Sys2Proof.Machine
end

