-- ==== Sys2Proof/Machine/IndexMemory.lean ====
section
/-! DEFINITION. Index register and memory instructions (43_index_memory.md). `I` is changed by the first three only. -/

namespace Sys2Proof.Machine

/-- `Annn` (R180). -/
def execLdI (nnn : Imm12) (s : State) : Host.Outcome State Fault Refusal :=
  .next (s.setI (zext16 nnn)).advance

/-- `Fx1E` (R181): 16-bit wrapping addition, no flag. -/
def execAddI (x : RegIdx) (s : State) : Host.Outcome State Fault Refusal :=
  .next (s.setI (s.I + zext16 (s.reg x))).advance

/-- `Fx29` (R182): all 8 bits of `V[x]` times 5. -/
def execLdF (x : RegIdx) (s : State) : Host.Outcome State Fault Refusal :=
  .next (s.setI (zext16 (s.reg x) * 5)).advance

/-- `Fx33` (R183): the decimal digits of `V[x]` at `I`, `I + 1`, `I + 2`. -/
def execLdB (x : RegIdx) (s : State) : Host.Outcome State Fault Refusal :=
  s.withData (.ldB x) 2 (s.setMem (s.mem.writeBytes (s.dataAddr 0) (bcdDigits (s.reg x)))).advance

/-- `Fx55` (R184): `V[0]` to `V[x]` at `I` onward. -/
def execStoreRegs (x : RegIdx) (s : State) : Host.Outcome State Fault Refusal :=
  s.withData (.storeRegs x) x.val (s.setMem (s.mem.writeBytes (s.dataAddr 0) (s.regsUpTo x))).advance

/-- `Fx65` (R185): `V[0]` to `V[x]` from `I` onward. -/
def execLoadRegs (x : RegIdx) (s : State) : Host.Outcome State Fault Refusal :=
  s.withData (.loadRegs x) x.val (s.setV (loadRegFile s.mem (s.dataAddr 0) s.V (x.val + 1))).advance

end Sys2Proof.Machine
end

