-- ==== Sys2Proof/Machine/Keypad.lean ====
section
/-! DEFINITION. Keypad instructions (44_keypad.md). The poll of a waiting step is `State.poll`. -/

namespace Sys2Proof.Machine

/-- `Ex9E` (R200): skip if key `V[x]` is held; `KeyIndexOutOfRange` above 15. -/
def execSkp (x : RegIdx) (s : State) : Host.Outcome State Fault Refusal :=
  s.withKey (.skp x) (s.reg x) (s.advanceSkipIf (s.keyHeld (s.reg x)))

/-- `ExA1` (R201): skip if key `V[x]` is not held; `KeyIndexOutOfRange` above 15. -/
def execSknp (x : RegIdx) (s : State) : Host.Outcome State Fault Refusal :=
  s.withKey (.sknp x) (s.reg x) (s.advanceSkipIf (!s.keyHeld (s.reg x)))

/-- `Fx0A` (R202), the entering step: the wait begins with this snapshot as its baseline, and `pc` stays at the
instruction. -/
def execLdVxK (x : RegIdx) (s : State) : Host.Outcome State Fault Refusal :=
  .next { s with status := .awaitingKey x, prevKeys := s.io.keys }

end Sys2Proof.Machine
end

