-- ==== Sys2Proof/Machine/Cycle.lean ====
section
/-! DEFINITION. The three events (R6): the step cycle of R90, the timer tick and the load, and where the next event comes
from. -/

namespace Sys2Proof.Machine

/-- The step's result is read after its effects (R46, R90). -/
def reported : Host.Outcome State Fault Refusal → Host.Outcome State Fault Refusal
  | .next t => .next t.report
  | .fault r => .fault r
  | .refused r => .refused r

/-- Fetch, decode and execute one instruction (R90, R91): `FetchOutOfBounds` when `pc` has no two bytes of memory (R234),
`DecodeError` when the word is illegal (R231), else the meaning of the decoded form. -/
def State.runInstruction (s : State) : Host.Outcome State Fault Refusal :=
  if s.canFetch then
    match decode s.fetchBytes with
    | .ok (i, _) => exec i s
    | .error _ => .next (s.raise .decodeError s.fetchWord s.fetchWord.toNat)
  else .next (s.raise .fetchOutOfBounds 0 s.pc.toNat)

/-- The three tests at the top of a step, in the order of R90 and R244: fault first, then status. -/
def State.runCycle (s : State) : Host.Outcome State Fault Refusal :=
  match s.fault with
  | some _ => .next s
  | none =>
    match s.status with
    | .awaitingKey t => .next (s.poll t)
    | .running => s.runInstruction

/-- `step(keys, rnd)` (R90). -/
def State.runStep (s : State) (keys : Word) (rnd : Byte) : Host.Outcome State Fault Refusal :=
  reported (s.latch keys rnd).runCycle

/-- One event. Before a `load` has succeeded there is no machine, and only `load` has a meaning (R282). -/
def State.runEvent (s : State) : Event → Host.Outcome State Fault Refusal
  | .load rom => s.load rom
  | .step keys rnd => if s.loaded then s.runStep keys rnd else .refused .noMachine
  | .timerTick => if s.loaded then .next s.tick else .refused .noMachine

/-- The next event of the environment and the state without it: the oldest queued event, or a free value when none is
queued (log entries 1, 2). -/
def State.nextEvent (s : State) : Event × State :=
  match s.io.events with
  | e :: rest => (e, { s with io := { s.io with events := rest } })
  | [] => (Config.freeEvent s.io.drawn, { s with io := { s.io with drawn := s.io.drawn + 1 } })

/-! Placing an instruction for the host (log entry 9). -/

/-- The queue with a `step` event at its head; one that has it already stays. DESIGN CHOICE, unsafe: the event that is put in
has `keys = 0x0000` and `rnd = 0x00`, where the spec leaves both free (R7, D20; log entry 9). -/
def stepFirst : List Event → List Event
  | .step keys rnd :: rest => .step keys rnd :: rest
  | es => .step 0x0000 0x00 :: es

/-- The address the next fetch reads: `pc`, or the program base when `pc` has no two bytes of memory. -/
def State.fetchPc (s : State) : Word := if s.canFetch then s.pc else 0x0200

/-- `s` with the word `op` where the next step fetches, and with all that this step needs: a machine that is loaded, running
and without a fault, and a `step` event at the head of the queue. -/
def State.placeWord (s : State) (op : Word) : State :=
  { s with
    pc := s.fetchPc
    mem := s.mem.writeBytes s.fetchPc.toNat [op.extractLsb' 8 8, op.extractLsb' 0 8]
    status := .running
    fault := none
    loaded := true
    io := { s.io with events := stepFirst s.io.events } }

end Sys2Proof.Machine
end

