-- ==== Sys2Proof/Machine/Step.lean ====
section
/-! DEFINITION. One step of the model: one event (R6). -/

namespace Sys2Proof.Machine

/-- One event of the machine, taken from the environment (R6, R224). -/
def step (s : State) : Host.Outcome State Fault Refusal := s.nextEvent.2.runEvent s.nextEvent.1

/-- `s` with the instruction of the table's numbering stored where `step` fetches its next instruction; it stands for a
load of a program from outside the machine (log entry 9). -/
def State.withFetchWord (s : State) (nbits w : Nat) : State := s.placeWord (BitVec.ofNat 16 (w % 2 ^ nbits))

end Sys2Proof.Machine
end

