-- ==== Sys2Proof/Safety.lean ====
section
/-! DEFINITION. What counts as a safe state and a safe run (rule R242), and the invariant that every step keeps. -/

namespace Sys2Proof.Machine

/-- A state that has not gone wrong: the machine exists (R282) and no fault is recorded. "Every claim takes the absence of
a recorded fault as a premise" (R242). -/
def State.safe (s : State) : Bool := s.loaded && s.fault.isNone

/-- `n` events from `s` pass through safe states only. -/
def safeFor : Nat → State → Bool
  | 0, s => s.safe
  | n + 1, s => s.safe &&
    match step s with
    | .next t => safeFor n t
    | .fault _ => false
    | .refused _ => false

/-- The invariant of the machine. Memory is canonical; `pc` never passes the greatest sum of `Bnnn`, 0x10FE (R25, R137);
every stack entry in use is a return address of at most 0x1000 (R91, R132); a waiting machine stands at a fetched
`Fx0A` and has no fault (R202, R203); an aborted machine stands at the instruction it recorded, and only a fetch outside
memory is recorded with a `pc` that cannot be fetched (R234, R240, R241). -/
structure State.Inv (s : State) : Prop where
  mem : s.mem.wf = true
  pc : s.pc.toNat ≤ 0x10FE
  stack : ∀ k : Fin 16, k.val < s.depth.val → (s.stack[k.val]).toNat ≤ 0x1000
  waiting : ∀ t, s.status = .awaitingKey t → s.pc.toNat ≤ 0xFFE ∧ s.fault = none
  aborted : ∀ f, s.fault = some f → f.pc0 = s.pc ∧ (f.cause = .fetchOutOfBounds ↔ 0xFFE < s.pc.toNat)

end Sys2Proof.Machine
end

