-- ==== Sys2Proof/Certificates/Slice0/Obligations.lean ====
section
/-! DEFINITION. The statements for the provers. Each docstring names the rule of spec/ that the statement formalises. Where
a clause rests on a decision the spec marks as its own (92_eei_decisions.md D<n>), on a passage it marks as general
knowledge, or on a choice of this model (a log entry), the docstring says so. -/

namespace Sys2Proof.Certificates

open Sys2Proof.Machine

/-! ## Vocabulary: what an instruction leaves unchanged -/

/-- The pieces of state other than the general registers, memory and `pc`, by name. -/
inductive Part where
  | I | stack | sp | DT | ST | FB | status | prevKeys | fault | redraw
  deriving DecidableEq, Repr

/-- `t` agrees with `s` on every piece of state except: the program counter, the registers `regs`, the pieces `parts` and
the bytes of memory at the addresses `stored`. -/
structure Frame (regs : List RegIdx) (parts : List Part) (stored : List Nat) (s t : State) : Prop where
  reg : ∀ r, r ∉ regs → t.reg r = s.reg r
  mem : ∀ a, a ∉ stored → t.mem.read a = s.mem.read a
  I : .I ∉ parts → t.I = s.I
  stack : .stack ∉ parts → t.stack = s.stack
  sp : .sp ∉ parts → t.sp = s.sp
  DT : .DT ∉ parts → t.DT = s.DT
  ST : .ST ∉ parts → t.ST = s.ST
  FB : .FB ∉ parts → t.FB = s.FB
  status : .status ∉ parts → t.status = s.status
  prevKeys : .prevKeys ∉ parts → t.prevKeys = s.prevKeys
  fault : .fault ∉ parts → t.fault = s.fault
  redraw : .redraw ∉ parts → t.io.redraw = s.io.redraw
  loaded : t.loaded = s.loaded
  keys : t.io.keys = s.io.keys
  rnd : t.io.rnd = s.io.rnd
  soundActive : t.io.soundActive = s.io.soundActive
  events : t.io.events = s.io.events
  drawn : t.io.drawn = s.io.drawn

/-- `t` is `s` after fault entry (R240, R241): the record is set, and nothing else differs, `pc` included. -/
def FaultTaken (s t : State) (cause : FaultCause) (op : Word) (info : Nat) : Prop :=
  t = { s with fault := some { cause := cause, pc0 := s.pc, op := op, info := info } }

/-- A flag as the byte that VF receives (R23). -/
def FlagIs (b : Byte) (p : Prop) : Prop := (p → b = 0x01) ∧ (¬ p → b = 0x00)

/-- The machine exists and the next event is `step(keys, rnd)`. -/
def StepComes (s : State) (keys : Word) (rnd : Byte) (rest : List Event) : Prop :=
  s.loaded = true ∧ s.io.events = .step keys rnd :: rest

/-- The ports after a step that reported no redraw (R46): its arguments, its outputs, the queue without the event. -/
def portsAfter (s : State) (keys : Word) (rnd : Byte) (rest : List Event) : Io :=
  { keys := keys, rnd := rnd, redraw := false, soundActive := decide (s.ST ≠ 0), events := rest, drawn := s.io.drawn }

/-- Key `k` has a press edge: up in the previous snapshot, down in this one (R204). -/
def Edge (prev keys : Word) (k : RegIdx) : Prop := prev.getLsbD k.val = false ∧ keys.getLsbD k.val = true

/-- The sprite bit that `Dxyn` puts on the pixel at row `r`, column `c` (R121, R122): the sprite's origin is
`(V[x] mod 64, V[y] mod 32)`, its row `k` is the byte at `I + k`, its leftmost column is bit 7. -/
def spriteOver (s : State) (x y : RegIdx) (n : Fin 16) (r c : Nat) : Bool :=
  let x0 := (s.reg x).toNat % 64
  let y0 := (s.reg y).toNat % 32
  decide (y0 ≤ r ∧ r < y0 + n.val ∧ x0 ≤ c ∧ c < x0 + 8) &&
    (s.mem.read (s.I.toNat + (r - y0))).getLsbD (7 - (c - x0))

/-- How many sprite rows `Dxyn` draws: those on the screen (R121). -/
def rowsDrawn (s : State) (y : RegIdx) (n : Fin 16) : Nat := min n.val (32 - (s.reg y).toNat % 32)

/-- `Dxyn` needs no address above 0xFFF (R71, R121). -/
def SpriteInMemory (s : State) (y : RegIdx) (n : Fin 16) : Prop :=
  rowsDrawn s y n = 0 ∨ s.I.toNat + (rowsDrawn s y n - 1) ≤ 0xFFF

/-- The general registers that a form names as a destination, and VF for the six flag-writing forms of R23. -/
def destinations : Instr → List RegIdx
  | .ldImm x _ | .addImm x _ | .ldReg x _ | .orReg x _ | .andReg x _ | .xorReg x _ | .rnd x _ | .ldVxDT x => [x]
  | .addReg x _ | .subReg x _ | .shr x _ | .subnReg x _ | .shl x _ => [x, 15]
  | .drw _ _ _ => [15]
  | .loadRegs x => (List.finRange 16).filter (fun r => decide (r ≤ x))
  | .cls | .ret | .jp _ | .call _ | .seImm _ _ | .sneImm _ _ | .seReg _ _ | .sneReg _ _ | .ldI _ | .jpV0 _ | .skp _ | .sknp _
  | .ldVxK _ | .ldDTVx _ | .ldSTVx _ | .addI _ | .ldF _ | .ldB _ | .storeRegs _ => []

/-- The forms that do more with `pc` than advance it over themselves: jumps, call, return, skips, and `Fx0A`, which leaves it
(R25, R202). -/
def steersPc : Instr → Bool
  | .ret | .jp _ | .call _ | .seImm _ _ | .sneImm _ _ | .seReg _ _ | .sneReg _ _ | .jpV0 _ | .skp _ | .sknp _ | .ldVxK _ => true
  | .cls | .ldImm _ _ | .addImm _ _ | .ldReg _ _ | .orReg _ _ | .andReg _ _ | .xorReg _ _ | .addReg _ _ | .subReg _ _ | .shr _ _
  | .subnReg _ _ | .shl _ _ | .ldI _ | .rnd _ _ | .drw _ _ _ | .ldVxDT _ | .ldDTVx _ | .ldSTVx _ | .addI _ | .ldF _ | .ldB _
  | .storeRegs _ | .loadRegs _ => false

/-- The eight forms that can fault once decoded (R239). -/
def canFault : Instr → Bool
  | .ret | .call _ | .drw _ _ _ | .skp _ | .sknp _ | .ldB _ | .storeRegs _ | .loadRegs _ => true
  | .cls | .jp _ | .seImm _ _ | .sneImm _ _ | .seReg _ _ | .sneReg _ _ | .jpV0 _ | .ldImm _ _ | .addImm _ _ | .ldReg _ _
  | .orReg _ _ | .andReg _ _ | .xorReg _ _ | .addReg _ _ | .subReg _ _ | .shr _ _ | .subnReg _ _ | .shl _ _ | .ldI _
  | .rnd _ _ | .ldVxDT _ | .ldVxK _ | .ldDTVx _ | .ldSTVx _ | .addI _ | .ldF _ => false

/-- What the program and its results can show of `s` once the sound timer and the sound output are hidden. -/
def hideSound (s : State) : State := { s with ST := 0, io := { s.io with soundActive := false } }

/-- A function on the next state of an outcome. -/
def mapNext (f : State → State) : Host.Outcome State Fault Refusal → Host.Outcome State Fault Refusal
  | .next t => .next (f t)
  | .fault r => .fault r
  | .refused r => .refused r

end Sys2Proof.Certificates

open Sys2Proof Sys2Proof.Machine Sys2Proof.Certificates

/-! ## Encoding (30_encoding.md) -/

/-- Decoding the two bytes of any instruction, whatever follows them, gives the instruction back and leaves what
follows (R92, R93, R95; `y` of `8xy6` and `8xyE` included, R102). -/
def Obligations.DecodeOfEncodedInstructionGivesItBack : Prop :=
  ∀ (i : Instr) (rest : List Byte), i.wellFormed = true ∧ decode (encodeBytes i ++ rest) = .ok (i, rest)

/-- A word that decodes is the encoding of what it decodes to: decoding drops no bit of the word (R92, R95, R102). -/
def Obligations.EncodeOfDecodedWordIsTheWord : Prop :=
  ∀ (w : Word) (i : Instr), decodeWord w = .ok i → encode i = w

/-- The words that decode are exactly those of the opcode map, and no word belongs to two rows (R95, R101). That the whole
pattern must match is decision D3. -/
def Obligations.LegalWordsAreTheRowsOfTheOpcodeMap : Prop :=
  ∀ w : Word,
    ((∃ i, decodeWord w = .ok i) ↔ ∃ r ∈ opcodeRows, w &&& r.mask = r.bits) ∧
    (∀ r ∈ opcodeRows, ∀ q ∈ opcodeRows, w &&& r.mask = r.bits → w &&& q.mask = q.bits → r = q)

/-- The words of the table in section 2.1 of 95_test_vectors.md, each with the instruction the table names, and illegal
words of each category. That 0x81A6 is a shift right is decision D34 (log entry 15, PRESUMED); that the five last words are
illegal is decisions D2, D3 and D4 (log entry 23, DESIGN CHOICE). -/
def Obligations.WordsOfTheTestVectorsDecode : Prop :=
  decodeWord 0x6A7F#16 = .ok (.ldImm 0xA 0x7F#8) ∧ decodeWord 0xD125#16 = .ok (.drw 1 2 5) ∧
  decodeWord 0x8AB4#16 = .ok (.addReg 0xA 0xB) ∧ decodeWord 0xF365#16 = .ok (.loadRegs 3) ∧
  decodeWord 0x00E0#16 = .ok .cls ∧ decodeWord 0xB204#16 = .ok (.jpV0 0x204#12) ∧
  decodeWord 0xE5A1#16 = .ok (.sknp 5) ∧ decodeWord 0x81A6#16 = .ok (.shr 1 0xA) ∧
  decodeWord 0x0000#16 = .error (.category0 0x0000#16) ∧ decodeWord 0x5121#16 = .error (.skipNibble 0x5121#16) ∧
  decodeWord 0x812D#16 = .error (.aluNibble 0x812D#16) ∧ decodeWord 0xE1A0#16 = .error (.keyByte 0xE1A0#16) ∧
  decodeWord 0xF10B#16 = .error (.miscByte 0xF10B#16)

/-! ## Display (40_display.md) -/

/-- R120. That a clear reports a redraw is decision D18. -/
def Obligations.ClsTurnsEveryPixelOff : Prop :=
  decodeWord 0x00E0#16 = .ok .cls ∧
  ∀ s : State, ∃ t, exec .cls s = .next t ∧
    (∀ r c, r < 32 → c < 64 → t.FB.pixel r c = false) ∧ t.io.redraw = true ∧ t.pc = s.pc + 2 ∧
    Frame [] [.FB, .redraw] [] s t

/-- R121 and R122. Drawing where the visible rows are in memory: each pixel is XORed with the sprite bit over it, VF is the
collision flag (also for `x = 15`, `y = 15`), and a draw is reported; else `DataOutOfBounds` with the highest address
needed. The test on memory, the rows that are not read and the bit order are decisions D6 and D17, the bit order being
general knowledge (log entry 14); that VF is written last is decision D13. -/
def Obligations.DrwXorsTheVisibleSpriteAndReportsCollision : Prop :=
  ∀ (x y : RegIdx) (n : Fin 16),
  decodeWord (0xD#4 ++ nibble x ++ nibble y ++ nibble n) = .ok (.drw x y n) ∧
  ∀ s : State,
    (SpriteInMemory s y n → ∃ t, exec (.drw x y n) s = .next t ∧
      (∀ r c, r < 32 → c < 64 → t.FB.pixel r c = (s.FB.pixel r c ^^ spriteOver s x y n r c)) ∧
      FlagIs (t.reg 15) (∃ r c, r < 32 ∧ c < 64 ∧ s.FB.pixel r c = true ∧ spriteOver s x y n r c = true) ∧
      t.io.redraw = true ∧ t.pc = s.pc + 2 ∧ Frame [15] [.FB, .redraw] [] s t) ∧
    (¬ SpriteInMemory s y n → ∃ t, exec (.drw x y n) s = .next t ∧
      FaultTaken s t .dataOutOfBounds (0xD#4 ++ nibble x ++ nibble y ++ nibble n)
        (s.I.toNat + (rowsDrawn s y n - 1)))

/-- R123 (a). Drawing the same sprite at the same place again restores the framebuffer; the second draw sets VF exactly
when a visible 1 bit of the sprite lay over a pixel that was off before the first draw. (R123 speaks of a visible 1 bit
only, "and that the area was clear before the first draw": log entry 26.) Rests on decisions D6 (the addresses) and D17 (unread
rows, bit order) as `Dxyn` does, and on D13 (VF is written last), which shows when `x = 15` or `y = 15`. -/
def Obligations.DrawingTwiceRestoresTheFramebuffer : Prop :=
  ∀ (x y : RegIdx) (n : Fin 16) (s : State), SpriteInMemory s y n →
    ∃ t, exec (.drw x y n) s = .next t ∧
      (t.reg x = s.reg x → t.reg y = s.reg y →
        ∃ u, exec (.drw x y n) t = .next u ∧
          (∀ r c, r < 32 → c < 64 → u.FB.pixel r c = s.FB.pixel r c) ∧
          FlagIs (u.reg 15) (∃ r c, r < 32 ∧ c < 64 ∧ s.FB.pixel r c = false ∧ spriteOver s x y n r c = true))

/-! ## Control transfer (41_control_flow.md) -/

/-- R130. The fault on an empty stack is decision D5; that the popped cell keeps its value is decision D31. -/
def Obligations.RetPopsTheReturnAddress : Prop :=
  decodeWord 0x00EE#16 = .ok .ret ∧
  ∀ s : State,
    (∀ k : Fin 16, s.sp = (k.val : Int) → ∃ t, exec .ret s = .next t ∧
      t.pc = s.stack[k.val] ∧ t.sp = s.sp - 1 ∧ Frame [] [.sp] [] s t) ∧
    (s.sp = -1 → ∃ t, exec .ret s = .next t ∧ FaultTaken s t .stackUnderflow 0x00EE#16 0)

/-- R131. -/
def Obligations.JpSetsPcToTheAbsoluteTarget : Prop :=
  ∀ nnn : Imm12, decodeWord (0x1#4 ++ nnn) = .ok (.jp nnn) ∧
  ∀ s : State, ∃ t, exec (.jp nnn) s = .next t ∧ t.pc.toNat = nnn.toNat ∧ Frame [] [] [] s t

/-- R132. The fault with 16 entries in use is decision D5. -/
def Obligations.CallPushesTheNextAddressAndJumps : Prop :=
  ∀ nnn : Imm12, decodeWord (0x2#4 ++ nnn) = .ok (.call nnn) ∧
  ∀ s : State,
    (s.sp < 15 → ∃ t, exec (.call nnn) s = .next t ∧
      t.pc.toNat = nnn.toNat ∧ t.sp = s.sp + 1 ∧
      (∀ k : Fin 16, (k.val : Int) = s.sp + 1 → t.stack[k.val] = s.pc + 2) ∧
      (∀ k : Fin 16, (k.val : Int) ≠ s.sp + 1 → t.stack[k.val] = s.stack[k.val]) ∧
      Frame [] [.sp, .stack] [] s t) ∧
    (s.sp = 15 → ∃ t, exec (.call nnn) s = .next t ∧ FaultTaken s t .stackOverflow (0x2#4 ++ nnn) 0)

/-- R132, R130: a return after a call resumes at the instruction after the call with the stack pointer of before, and
leaves everything else but one unused stack cell as it was. That the call goes on below 16 entries only is decision D5, that
the popped cell keeps its value D31. -/
def Obligations.ReturnUndoesCall : Prop :=
  ∀ (nnn : Imm12) (s : State), s.sp < 15 →
    ∃ t u, exec (.call nnn) s = .next t ∧ exec .ret t = .next u ∧
      u.pc = s.pc + 2 ∧ u.sp = s.sp ∧
      (∀ k : Fin 16, (k.val : Int) ≠ s.sp + 1 → u.stack[k.val] = s.stack[k.val]) ∧
      Frame [] [.stack] [] s u

/-- R133. -/
def Obligations.SeImmSkipsOnEqual : Prop :=
  ∀ (x : RegIdx) (nn : Byte), decodeWord (0x3#4 ++ nibble x ++ nn) = .ok (.seImm x nn) ∧
  ∀ s : State, ∃ t, exec (.seImm x nn) s = .next t ∧
    t.pc = (if s.reg x = nn then s.pc + 4 else s.pc + 2) ∧ Frame [] [] [] s t

/-- R134. -/
def Obligations.SneImmSkipsOnUnequal : Prop :=
  ∀ (x : RegIdx) (nn : Byte), decodeWord (0x4#4 ++ nibble x ++ nn) = .ok (.sneImm x nn) ∧
  ∀ s : State, ∃ t, exec (.sneImm x nn) s = .next t ∧
    t.pc = (if s.reg x = nn then s.pc + 2 else s.pc + 4) ∧ Frame [] [] [] s t

/-- R135. That a low nibble other than 0 is illegal is decision D3. -/
def Obligations.SeRegSkipsOnEqualRegisters : Prop :=
  ∀ x y : RegIdx, decodeWord (0x5#4 ++ nibble x ++ nibble y ++ 0x0#4) = .ok (.seReg x y) ∧
  (∀ n : Fin 16, n ≠ 0 → ∀ i, decodeWord (0x5#4 ++ nibble x ++ nibble y ++ nibble n) ≠ .ok i) ∧
  ∀ s : State, ∃ t, exec (.seReg x y) s = .next t ∧
    t.pc = (if s.reg x = s.reg y then s.pc + 4 else s.pc + 2) ∧ Frame [] [] [] s t

/-- R136. That a low nibble other than 0 is illegal is decision D3. -/
def Obligations.SneRegSkipsOnUnequalRegisters : Prop :=
  ∀ x y : RegIdx, decodeWord (0x9#4 ++ nibble x ++ nibble y ++ 0x0#4) = .ok (.sneReg x y) ∧
  (∀ n : Fin 16, n ≠ 0 → ∀ i, decodeWord (0x9#4 ++ nibble x ++ nibble y ++ nibble n) ≠ .ok i) ∧
  ∀ s : State, ∃ t, exec (.sneReg x y) s = .next t ∧
    t.pc = (if s.reg x = s.reg y then s.pc + 2 else s.pc + 4) ∧ Frame [] [] [] s t

/-- R137. That the sum is not reduced to 12 bits is decision D27. -/
def Obligations.JpV0AddsV0ToTheTarget : Prop :=
  ∀ nnn : Imm12, decodeWord (0xB#4 ++ nnn) = .ok (.jpV0 nnn) ∧
  ∀ s : State, ∃ t, exec (.jpV0 nnn) s = .next t ∧
    t.pc.toNat = (s.reg 0).toNat + nnn.toNat ∧ Frame [] [] [] s t

/-! ## Register load, ALU and random (42_alu.md) -/

/-- R152. -/
def Obligations.LdImmLoadsTheImmediate : Prop :=
  ∀ (x : RegIdx) (nn : Byte), decodeWord (0x6#4 ++ nibble x ++ nn) = .ok (.ldImm x nn) ∧
  ∀ s : State, ∃ t, exec (.ldImm x nn) s = .next t ∧
    t.reg x = nn ∧ t.pc = s.pc + 2 ∧ Frame [x] [] [] s t

/-- R153: no flag is written, even on overflow; with `x = 15` VF is the accumulator. -/
def Obligations.AddImmWrapsAndWritesNoFlag : Prop :=
  ∀ (x : RegIdx) (nn : Byte), decodeWord (0x7#4 ++ nibble x ++ nn) = .ok (.addImm x nn) ∧
  ∀ s : State, ∃ t, exec (.addImm x nn) s = .next t ∧
    (t.reg x).toNat = ((s.reg x).toNat + nn.toNat) % 256 ∧ t.pc = s.pc + 2 ∧ Frame [x] [] [] s t

/-- R154. -/
def Obligations.LdRegCopiesTheRegister : Prop :=
  ∀ x y : RegIdx, decodeWord (0x8#4 ++ nibble x ++ nibble y ++ 0x0#4) = .ok (.ldReg x y) ∧
  ∀ s : State, ∃ t, exec (.ldReg x y) s = .next t ∧
    t.reg x = s.reg y ∧ t.pc = s.pc + 2 ∧ Frame [x] [] [] s t

/-- R155, R156, R157, bit by bit. That VF is not written is decision D14. -/
def Obligations.LogicalOperationsWorkBitByBit : Prop :=
  ∀ x y : RegIdx,
  decodeWord (0x8#4 ++ nibble x ++ nibble y ++ 0x1#4) = .ok (.orReg x y) ∧
  decodeWord (0x8#4 ++ nibble x ++ nibble y ++ 0x2#4) = .ok (.andReg x y) ∧
  decodeWord (0x8#4 ++ nibble x ++ nibble y ++ 0x3#4) = .ok (.xorReg x y) ∧
  ∀ s : State,
    (∃ t, exec (.orReg x y) s = .next t ∧
      (∀ b, (t.reg x).getLsbD b = ((s.reg x).getLsbD b || (s.reg y).getLsbD b)) ∧
      t.pc = s.pc + 2 ∧ Frame [x] [] [] s t) ∧
    (∃ t, exec (.andReg x y) s = .next t ∧
      (∀ b, (t.reg x).getLsbD b = ((s.reg x).getLsbD b && (s.reg y).getLsbD b)) ∧
      t.pc = s.pc + 2 ∧ Frame [x] [] [] s t) ∧
    (∃ t, exec (.xorReg x y) s = .next t ∧
      (∀ b, (t.reg x).getLsbD b = ((s.reg x).getLsbD b ^^ (s.reg y).getLsbD b)) ∧
      t.pc = s.pc + 2 ∧ Frame [x] [] [] s t)

/-- R158. That the flag is written last, so that with `x = 15` it replaces the sum, is decision D13 (R151). -/
def Obligations.AddRegSetsVFToTheCarry : Prop :=
  ∀ x y : RegIdx, decodeWord (0x8#4 ++ nibble x ++ nibble y ++ 0x4#4) = .ok (.addReg x y) ∧
  ∀ s : State, ∃ t, exec (.addReg x y) s = .next t ∧
    (x ≠ 15 → (t.reg x).toNat = ((s.reg x).toNat + (s.reg y).toNat) % 256) ∧
    FlagIs (t.reg 15) ((s.reg x).toNat + (s.reg y).toNat > 255) ∧
    t.pc = s.pc + 2 ∧ Frame [x, 15] [] [] s t

/-- R159, with the strict comparison of decision D33; the flag last is decision D13. -/
def Obligations.SubRegSetsVFWhenVxIsGreater : Prop :=
  ∀ x y : RegIdx, decodeWord (0x8#4 ++ nibble x ++ nibble y ++ 0x5#4) = .ok (.subReg x y) ∧
  ∀ s : State, ∃ t, exec (.subReg x y) s = .next t ∧
    (x ≠ 15 → (t.reg x).toNat = ((s.reg x).toNat + 256 - (s.reg y).toNat) % 256) ∧
    FlagIs (t.reg 15) ((s.reg x).toNat > (s.reg y).toNat) ∧
    t.pc = s.pc + 2 ∧ Frame [x, 15] [] [] s t

/-- R160. That `V[x]` is shifted in place and `y` ignored is decision D12, the flag last D13, the value `n = 6` D34. -/
def Obligations.ShrHalvesVxAndKeepsBitZero : Prop :=
  ∀ x y : RegIdx, decodeWord (0x8#4 ++ nibble x ++ nibble y ++ 0x6#4) = .ok (.shr x y) ∧
  ∀ s : State, ∃ t, exec (.shr x y) s = .next t ∧
    (x ≠ 15 → (t.reg x).toNat = (s.reg x).toNat / 2) ∧
    FlagIs (t.reg 15) ((s.reg x).toNat % 2 = 1) ∧
    t.pc = s.pc + 2 ∧ Frame [x, 15] [] [] s t

/-- R161, with the strict comparison of decision D33; the flag last is decision D13, the value `n = 7` D34. -/
def Obligations.SubnRegSetsVFWhenVyIsGreater : Prop :=
  ∀ x y : RegIdx, decodeWord (0x8#4 ++ nibble x ++ nibble y ++ 0x7#4) = .ok (.subnReg x y) ∧
  ∀ s : State, ∃ t, exec (.subnReg x y) s = .next t ∧
    (x ≠ 15 → (t.reg x).toNat = ((s.reg y).toNat + 256 - (s.reg x).toNat) % 256) ∧
    FlagIs (t.reg 15) ((s.reg y).toNat > (s.reg x).toNat) ∧
    t.pc = s.pc + 2 ∧ Frame [x, 15] [] [] s t

/-- R162. The mask 0x80 is decision D11, the shift in place D12, the flag last D13, the value `n = 0xE` D34. -/
def Obligations.ShlDoublesVxAndKeepsBitSeven : Prop :=
  ∀ x y : RegIdx, decodeWord (0x8#4 ++ nibble x ++ nibble y ++ 0xE#4) = .ok (.shl x y) ∧
  ∀ s : State, ∃ t, exec (.shl x y) s = .next t ∧
    (x ≠ 15 → (t.reg x).toNat = 2 * (s.reg x).toNat % 256) ∧
    FlagIs (t.reg 15) ((s.reg x).toNat ≥ 128) ∧
    t.pc = s.pc + 2 ∧ Frame [x, 15] [] [] s t

/-- R163: the random byte is the `rnd` argument of the step, whatever it is (decision D20, log entry 3). -/
def Obligations.RndMasksTheRandomByte : Prop :=
  ∀ (x : RegIdx) (nn : Byte), decodeWord (0xC#4 ++ nibble x ++ nn) = .ok (.rnd x nn) ∧
  ∀ s : State, ∃ t, exec (.rnd x nn) s = .next t ∧
    (∀ b, (t.reg x).getLsbD b = (s.io.rnd.getLsbD b && nn.getLsbD b)) ∧
    t.pc = s.pc + 2 ∧ Frame [x] [] [] s t

/-! ## Index register and memory (43_index_memory.md) -/

/-- R180. -/
def Obligations.LdILoadsTheAddress : Prop :=
  ∀ nnn : Imm12, decodeWord (0xA#4 ++ nnn) = .ok (.ldI nnn) ∧
  ∀ s : State, ∃ t, exec (.ldI nnn) s = .next t ∧
    t.I.toNat = nnn.toNat ∧ t.pc = s.pc + 2 ∧ Frame [] [.I] [] s t

/-- R181. That VF is not written is decision D14. -/
def Obligations.AddIWrapsAtSixteenBits : Prop :=
  ∀ x : RegIdx, decodeWord (0xF#4 ++ nibble x ++ 0x1E#8) = .ok (.addI x) ∧
  ∀ s : State, ∃ t, exec (.addI x) s = .next t ∧
    t.I.toNat = (s.I.toNat + (s.reg x).toNat) % 65536 ∧ t.pc = s.pc + 2 ∧ Frame [] [.I] [] s t

/-- R182. That all 8 bits of `V[x]` are used is decision D16. -/
def Obligations.LdFPointsAtFiveTimesVx : Prop :=
  ∀ x : RegIdx, decodeWord (0xF#4 ++ nibble x ++ 0x29#8) = .ok (.ldF x) ∧
  ∀ s : State, ∃ t, exec (.ldF x) s = .next t ∧
    t.I.toNat = 5 * (s.reg x).toNat ∧ t.pc = s.pc + 2 ∧ Frame [] [.I] [] s t

/-- R183. The test on the addresses is decision D6. The memory is assumed canonical, which every step keeps
(`StepKeepsTheInvariant`). -/
def Obligations.LdBStoresTheDecimalDigits : Prop :=
  ∀ x : RegIdx, decodeWord (0xF#4 ++ nibble x ++ 0x33#8) = .ok (.ldB x) ∧
  ∀ s : State, s.mem.wf = true →
    (s.dataAddr 2 ≤ 0xFFF → ∃ t, exec (.ldB x) s = .next t ∧
      (t.mem.read (s.dataAddr 0)).toNat = (s.reg x).toNat / 100 ∧
      (t.mem.read (s.dataAddr 1)).toNat = (s.reg x).toNat / 10 % 10 ∧
      (t.mem.read (s.dataAddr 2)).toNat = (s.reg x).toNat % 10 ∧
      t.pc = s.pc + 2 ∧ Frame [] [] ((List.range 3).map s.dataAddr) s t) ∧
    (s.dataAddr 2 > 0xFFF → ∃ t, exec (.ldB x) s = .next t ∧
      FaultTaken s t .dataOutOfBounds (0xF#4 ++ nibble x ++ 0x33#8) (s.dataAddr 2))

/-- R184. The test on the addresses is decision D6; that `I` is unchanged is decision D15. The memory is assumed
canonical, which every step keeps (`StepKeepsTheInvariant`). -/
def Obligations.StoreRegsWritesV0ToVx : Prop :=
  ∀ x : RegIdx, decodeWord (0xF#4 ++ nibble x ++ 0x55#8) = .ok (.storeRegs x) ∧
  ∀ s : State, s.mem.wf = true →
    (s.dataAddr x.val ≤ 0xFFF → ∃ t, exec (.storeRegs x) s = .next t ∧
      (∀ r : RegIdx, r ≤ x → t.mem.read (s.dataAddr r.val) = s.reg r) ∧
      t.pc = s.pc + 2 ∧ Frame [] [] ((List.range (x.val + 1)).map s.dataAddr) s t) ∧
    (s.dataAddr x.val > 0xFFF → ∃ t, exec (.storeRegs x) s = .next t ∧
      FaultTaken s t .dataOutOfBounds (0xF#4 ++ nibble x ++ 0x55#8) (s.dataAddr x.val))

/-- R185. The test on the addresses is decision D6; that `I` is unchanged is decision D15. -/
def Obligations.LoadRegsReadsV0ToVx : Prop :=
  ∀ x : RegIdx, decodeWord (0xF#4 ++ nibble x ++ 0x65#8) = .ok (.loadRegs x) ∧
  ∀ s : State,
    (s.dataAddr x.val ≤ 0xFFF → ∃ t, exec (.loadRegs x) s = .next t ∧
      (∀ r : RegIdx, r ≤ x → t.reg r = s.mem.read (s.dataAddr r.val)) ∧
      t.pc = s.pc + 2 ∧ Frame ((List.finRange 16).filter (fun r => decide (r ≤ x))) [] [] s t) ∧
    (s.dataAddr x.val > 0xFFF → ∃ t, exec (.loadRegs x) s = .next t ∧
      FaultTaken s t .dataOutOfBounds (0xF#4 ++ nibble x ++ 0x65#8) (s.dataAddr x.val))

/-! ## Keypad (44_keypad.md) -/

/-- R200. The fault above 15 is decision D8. -/
def Obligations.SkpSkipsOnAHeldKey : Prop :=
  ∀ x : RegIdx, decodeWord (0xE#4 ++ nibble x ++ 0x9E#8) = .ok (.skp x) ∧
  ∀ s : State,
    (∀ k : RegIdx, (s.reg x).toNat = k.val → ∃ t, exec (.skp x) s = .next t ∧
      t.pc = (if s.io.keys.getLsbD k.val = true then s.pc + 4 else s.pc + 2) ∧ Frame [] [] [] s t) ∧
    ((s.reg x).toNat > 15 → ∃ t, exec (.skp x) s = .next t ∧
      FaultTaken s t .keyIndexOutOfRange (0xE#4 ++ nibble x ++ 0x9E#8) (s.reg x).toNat)

/-- R201. The fault above 15 is decision D8. -/
def Obligations.SknpSkipsOnAFreeKey : Prop :=
  ∀ x : RegIdx, decodeWord (0xE#4 ++ nibble x ++ 0xA1#8) = .ok (.sknp x) ∧
  ∀ s : State,
    (∀ k : RegIdx, (s.reg x).toNat = k.val → ∃ t, exec (.sknp x) s = .next t ∧
      t.pc = (if s.io.keys.getLsbD k.val = true then s.pc + 2 else s.pc + 4) ∧ Frame [] [] [] s t) ∧
    ((s.reg x).toNat > 15 → ∃ t, exec (.sknp x) s = .next t ∧
      FaultTaken s t .keyIndexOutOfRange (0xE#4 ++ nibble x ++ 0xA1#8) (s.reg x).toNat)

/-- R202, the entering step. The explicit state and its details are decision D19. -/
def Obligations.LdVxKEntersTheWait : Prop :=
  ∀ x : RegIdx, decodeWord (0xF#4 ++ nibble x ++ 0x0A#8) = .ok (.ldVxK x) ∧
  ∀ s : State, ∃ t, exec (.ldVxK x) s = .next t ∧
    t.status = .awaitingKey x ∧ t.prevKeys = s.io.keys ∧ t.pc = s.pc ∧
    Frame [] [.status, .prevKeys] [] s t

/-- R203 and R204: a step while waiting. Without an edge only `prevKeys` changes; with edges the least key ends the wait
and the next instruction is not executed in this step. The lowest index and the other details are decision D19. -/
def Obligations.PollEndsTheWaitOnTheLeastPressEdge : Prop :=
  ∀ (s : State) (keys : Word) (rnd : Byte) (rest : List Event) (x : RegIdx),
    StepComes s keys rnd rest → s.fault = none → s.status = .awaitingKey x →
    ((∀ k, ¬ Edge s.prevKeys keys k) →
      step s = .next { s with prevKeys := keys, io := portsAfter s keys rnd rest }) ∧
    (∀ k, Edge s.prevKeys keys k → (∀ j, j < k → ¬ Edge s.prevKeys keys j) →
      step s = .next { s with
        V := s.V.set x.val (BitVec.ofNat 8 k.val)
        pc := s.pc + 2
        status := .running
        prevKeys := keys
        io := portsAfter s keys rnd rest })

/-! ## Timers (45_timers.md) -/

/-- R215. The direction of the copy agrees with general knowledge (log entry 15). -/
def Obligations.LdVxDTReadsTheDelayTimer : Prop :=
  ∀ x : RegIdx, decodeWord (0xF#4 ++ nibble x ++ 0x07#8) = .ok (.ldVxDT x) ∧
  ∀ s : State, ∃ t, exec (.ldVxDT x) s = .next t ∧
    t.reg x = s.DT ∧ t.pc = s.pc + 2 ∧ Frame [x] [] [] s t

/-- R216. The direction of the copy agrees with general knowledge (log entry 15). -/
def Obligations.LdDTVxSetsTheDelayTimer : Prop :=
  ∀ x : RegIdx, decodeWord (0xF#4 ++ nibble x ++ 0x15#8) = .ok (.ldDTVx x) ∧
  ∀ s : State, ∃ t, exec (.ldDTVx x) s = .next t ∧
    t.DT = s.reg x ∧ t.pc = s.pc + 2 ∧ Frame [] [.DT] [] s t

/-- R217: the sound timer is set, and the `sound_active` output of the step already reflects it (decision D29). -/
def Obligations.LdSTVxSetsTheSoundTimer : Prop :=
  ∀ x : RegIdx, decodeWord (0xF#4 ++ nibble x ++ 0x18#8) = .ok (.ldSTVx x) ∧
  ∀ s : State, ∃ t, exec (.ldSTVx x) s = .next t ∧
    t.ST = s.reg x ∧ (t.report.io.soundActive = true ↔ s.reg x ≠ 0) ∧ t.pc = s.pc + 2 ∧ Frame [] [.ST] [] s t

/-- R221: each timer counts down to 0 and stops there, and nothing else changes; that a tick happens in every status is
R225 (decision D21). That the ports `io.redraw` and `io.soundActive` stay as the last step left them is the model's choice (log
entry 4): the sound flag of R222, which falls at the tick, is `State.soundActive`. That the event leaves the queue is log
entry 1. -/
def Obligations.TimerTickCountsBothTimersDown : Prop :=
  ∀ (s : State) (rest : List Event), s.loaded = true → s.io.events = .timerTick :: rest → s.fault = none →
    ∃ t, step s = .next t ∧ t.DT.toNat = s.DT.toNat - 1 ∧ t.ST.toNat = s.ST.toNat - 1 ∧
      t = { s with DT := t.DT, ST := t.ST, io := { s.io with events := rest } }

/-! ## The step, faults and the aborted state (30_encoding.md, 60_exceptions.md) -/

/-- R90, R91: with no fault, running, and the bytes at `pc` those of an instruction, a step is the meaning of that
instruction, run with the step's arguments at the ports and `redraw` cleared, and then `sound_active` is read from the
state it leaves (R46, decision D29). `pc` is still at the instruction when `exec` is called (log entry 25). -/
def Obligations.StepRunsTheDecodedInstruction : Prop :=
  ∀ (s : State) (keys : Word) (rnd : Byte) (rest : List Event) (i : Instr) (tail : List Byte),
    StepComes s keys rnd rest → s.fault = none → s.status = .running → s.pc.toNat ≤ 0xFFE →
    decode [s.mem.read s.pc.toNat, s.mem.read (s.pc.toNat + 1)] = .ok (i, tail) →
    step s = mapNext (fun t => { t with io := { t.io with soundActive := decide (t.ST ≠ 0) } })
      (exec i { s with io := { s.io with keys := keys, rnd := rnd, redraw := false, events := rest } })

/-- R101, R231, R241: an illegal word is `DecodeError` with the word; nothing else changes. Decisions D2 and D9. -/
def Obligations.IllegalWordIsADecodeError : Prop :=
  ∀ (s : State) (keys : Word) (rnd : Byte) (rest : List Event) (op : Word),
    StepComes s keys rnd rest → s.fault = none → s.status = .running → s.pc.toNat ≤ 0xFFE →
    op = s.mem.read s.pc.toNat ++ s.mem.read (s.pc.toNat + 1) →
    (∀ r ∈ opcodeRows, op &&& r.mask ≠ r.bits) →
    step s = .next { s with
      fault := some { cause := .decodeError, pc0 := s.pc, op := op, info := op.toNat }
      io := portsAfter s keys rnd rest }

/-- R91, R234, R241: with `pc` above 0xFFE nothing is fetched. Decisions D7 and D9. -/
def Obligations.FetchAboveMemoryIsAFault : Prop :=
  ∀ (s : State) (keys : Word) (rnd : Byte) (rest : List Event),
    StepComes s keys rnd rest → s.fault = none → s.status = .running → s.pc.toNat > 0xFFE →
    step s = .next { s with
      fault := some { cause := .fetchOutOfBounds, pc0 := s.pc, op := 0, info := s.pc.toNat }
      io := portsAfter s keys rnd rest }

/-- R242: while a fault is recorded, steps and ticks change nothing but the ports. Decision D9. -/
def Obligations.AbortedMachineIsFrozen : Prop :=
  ∀ (s : State) (f : FaultRecord) (rest : List Event), s.fault = some f →
    (∀ keys rnd, StepComes s keys rnd rest → step s = .next { s with io := portsAfter s keys rnd rest }) ∧
    (s.loaded = true → s.io.events = .timerTick :: rest →
      step s = .next { s with io := { s.io with events := rest } })

/-- R239, R241: which instruction can raise what, and that a fault is precise: an instruction that records a fault changes
nothing else, and the record holds its address and its word. Decisions D5, D6, D8, D9. The word is recorded as `encode i`, which
is the fetched word by inference (log entry 6, DEDUCED). -/
def Obligations.FaultsArePreciseAndOnlyTheirInstructionsRaiseThem : Prop :=
  ∀ (i : Instr) (s t : State) (f : FaultRecord),
    s.fault = none → exec i s = .next t → t.fault = some f →
    t = { s with fault := some f } ∧ f.pc0 = s.pc ∧ f.op = encode i ∧
    match f.cause with
    | .stackOverflow => ∃ nnn, i = .call nnn ∧ s.sp = 15
    | .stackUnderflow => i = .ret ∧ s.sp = -1
    | .dataOutOfBounds => f.info > 0xFFF ∧
        ((∃ x y n, i = .drw x y n) ∨ ∃ x, i = .ldB x ∨ i = .storeRegs x ∨ i = .loadRegs x)
    | .keyIndexOutOfRange => f.info > 15 ∧ ∃ x, (i = .skp x ∨ i = .sknp x) ∧ f.info = (s.reg x).toNat
    | .decodeError => False
    | .fetchOutOfBounds => False

/-! ## Rules about the whole machine (10_state.md, 20_memory.md, 45_timers.md) -/

/-- Who writes what: the general registers R20 and VF R23, `pc` R25, `FB` R31, memory R61, the stack and `sp` R27 and R28, `I`
R26, `DT` R29, `ST` R30, `status` R33, `prevKeys` R34, `fault` R35 and R239, `redraw` R46; every instruction leaves `loaded`, the
parameter `FONT`, the arguments and the environment's queue alone. A form that does not steer `pc` advances it by 2, or takes
a fault and leaves it. That no other form writes VF is decision D14, that `Fx55` and `Fx65` leave `I` alone D15, that `00E0`
reports a redraw D18, the writing of `status` and `prevKeys` by `Fx0A` D19, that a fault leaves `pc` D9. -/
def Obligations.EachPieceOfStateHasOnlyItsWriters : Prop :=
  ∀ (i : Instr) (s t : State), exec i s = .next t →
    (∀ r, r ∉ destinations i → t.reg r = s.reg r) ∧
    (steersPc i = false → t.pc = s.pc + 2 ∨
      ∃ f, canFault i = true ∧ t.fault = some f ∧ f.pc0 = s.pc ∧ t.pc = s.pc) ∧
    (canFault i = false → t.fault = s.fault) ∧
    (i ≠ .cls → (∀ x y n, i ≠ .drw x y n) → t.FB = s.FB ∧ t.io.redraw = s.io.redraw) ∧
    ((∀ x, i ≠ .ldB x) → (∀ x, i ≠ .storeRegs x) → ∀ a, t.mem.read a = s.mem.read a) ∧
    ((∀ nnn, i ≠ .call nnn) → t.stack = s.stack) ∧
    ((∀ nnn, i ≠ .call nnn) → i ≠ .ret → t.sp = s.sp) ∧
    ((∀ nnn, i ≠ .ldI nnn) → (∀ x, i ≠ .addI x) → (∀ x, i ≠ .ldF x) → t.I = s.I) ∧
    ((∀ x, i ≠ .ldDTVx x) → t.DT = s.DT) ∧
    ((∀ x, i ≠ .ldSTVx x) → t.ST = s.ST) ∧
    ((∀ x, i ≠ .ldVxK x) → t.status = s.status ∧ t.prevKeys = s.prevKeys) ∧
    t.mem.font = s.mem.font ∧ t.loaded = s.loaded ∧ t.io.keys = s.io.keys ∧ t.io.rnd = s.io.rnd ∧
    t.io.events = s.io.events ∧ t.io.drawn = s.io.drawn

/-- R163 and R47: `rnd` is read by `Cxnn` only, `keys` by `Ex9E`, `ExA1` and `Fx0A` only: every other instruction has the
same result whatever the argument is. -/
def Obligations.OnlyTheirReadersSeeTheStepArguments : Prop :=
  ∀ (i : Instr) (s : State) (keys : Word) (rnd : Byte),
    ((∀ x nn, i ≠ .rnd x nn) →
      exec i { s with io := { s.io with rnd := rnd } } =
        mapNext (fun t => { t with io := { t.io with rnd := rnd } }) (exec i s)) ∧
    ((∀ x, i ≠ .skp x) → (∀ x, i ≠ .sknp x) → (∀ x, i ≠ .ldVxK x) →
      exec i { s with io := { s.io with keys := keys } } =
        mapNext (fun t => { t with io := { t.io with keys := keys } }) (exec i s))

/-- R30: "No instruction reads it." The sound timer is invisible to the program: two states that differ only in `ST` and in
the last sound output go, by any event, to states that differ in nothing else. -/
def Obligations.SoundTimerIsInvisibleToTheProgram : Prop :=
  ∀ s s' : State, hideSound s = hideSound s' → mapNext hideSound (step s) = mapNext hideSound (step s')

/-- R74: the bytes that `Fx55` stores are what a fetch sees, with nothing in between: at the address of `V[r]`, for every `r`
below `x`, the next instruction's bytes are `V[r]` and `V[r + 1]`. That the store is inside memory is decision D6. The memory is
assumed canonical, which every step keeps (`StepKeepsTheInvariant`). -/
def Obligations.StoredRegistersAreFetchedAsCode : Prop :=
  ∀ (x : RegIdx) (s : State), s.mem.wf = true → s.dataAddr x.val ≤ 0xFFF →
    ∃ t, exec (.storeRegs x) s = .next t ∧
      ∀ r q : RegIdx, q.val = r.val + 1 → q ≤ x →
        ∀ u : State, u.mem = t.mem → u.pc.toNat = s.dataAddr r.val →
          u.canFetch = true ∧ u.fetchBytes = [s.reg r, s.reg q]

/-! ## Load and reset (70_reset_and_hazards.md) -/

/-- R280 and the table of R40: after a load, from any state, every piece of state has its reset value and memory holds
the font, the ROM image and zeros. Decision D23. The font is the parameter `FONT`, whatever its bytes are, and stays (R39, log
entry 10); that the environment's queue stays is the model's choice (log entries 1 and 9). -/
def Obligations.LoadEstablishesTheResetState : Prop :=
  ∀ (s : State) (rom : List Byte) (rest : List Event),
    s.io.events = .load rom :: rest → rom.length ≤ 3584 →
    ∃ t, step s = .next t ∧
      (∀ r, t.reg r = 0x00) ∧ t.pc = 0x0200 ∧ t.I = 0x0000 ∧ t.sp = -1 ∧
      (∀ k : Fin 16, t.stack[k.val] = 0x0000) ∧ t.DT = 0x00 ∧ t.ST = 0x00 ∧
      (∀ r c, r < 32 → c < 64 → t.FB.pixel r c = false) ∧
      t.status = .running ∧ t.prevKeys = 0x0000 ∧ t.fault = none ∧ t.loaded = true ∧ t.mem.wf = true ∧
      t.mem.font = s.mem.font ∧ (∀ k : Fin 80, t.mem.read k.val = s.mem.font[k.val]) ∧
      (∀ a, 0x050 ≤ a → a < 0x200 → t.mem.read a = 0x00) ∧
      (∀ k, k < 3584 → t.mem.read (0x200 + k) = rom.getD k 0x00) ∧
      t.io.events = rest

/-- R237, R50: a ROM image of more than 3584 bytes is refused with `RomTooLarge` and leaves no machine. Decision D23; that
the refusal is the outcome `fault` is log entry 7. -/
def Obligations.LoadRefusesAnOversizedRom : Prop :=
  ∀ (s : State) (rom : List Byte) (rest : List Event),
    s.io.events = .load rom :: rest → rom.length > 3584 → step s = .fault (.romTooLarge rom.length)

/-- R282: before a load has succeeded, `step` and `timer_tick` have no meaning. Decision D23, log entry 8. -/
def Obligations.NoEventHasAMeaningBeforeALoad : Prop :=
  ∀ (s : State) (rest : List Event), s.loaded = false →
    (∀ keys rnd, s.io.events = .step keys rnd :: rest → step s = .refused .noMachine) ∧
    (s.io.events = .timerTick :: rest → step s = .refused .noMachine)

/-- R224 as the model takes it (log entries 1 and 2, the model's choice): with no event queued, the step is that of a state
in which the free event was queued, whatever that event is. -/
def Obligations.AnEmptyQueueMeansAFreeEvent : Prop :=
  ∀ s : State, s.io.events = [] →
    step s = step { s with io := { s.io with events := [Config.freeEvent s.io.drawn], drawn := s.io.drawn + 1 } }

/-- The reset table of R40 for `State.reset`, which has an empty ROM image (log entry 9): memory holds `FONT`, here its
default (R68, log entry 10, PRESUMED), and every byte after it is 0x00. -/
def Obligations.ResetStateHoldsTheResetValues : Prop :=
  State.reset.pc = 0x0200 ∧ State.reset.sp = -1 ∧ State.reset.I = 0x0000 ∧
  (∀ r, State.reset.reg r = 0x00) ∧ (∀ k : Fin 16, State.reset.stack[k.val] = 0x0000) ∧
  State.reset.DT = 0x00 ∧ State.reset.ST = 0x00 ∧ (∀ r c, State.reset.FB.pixel r c = false) ∧
  State.reset.status = .running ∧ State.reset.prevKeys = 0x0000 ∧ State.reset.fault = none ∧
  State.reset.mem.font = Config.defaultFont ∧ (∀ k : Fin 80, State.reset.mem.read k.val = Config.defaultFont[k.val]) ∧
  (∀ a, 0x050 ≤ a → State.reset.mem.read a = 0x00)

/-- The invariant holds right after reset. -/
def Obligations.ResetSatisfiesTheInvariant : Prop := State.reset.Inv

/-- Every event keeps the invariant of the machine (`State.Inv`: R24, R25, R137 for `pc`; R132 for the stack; R202, R203
for the wait; R234, R240, R241 for the fault record; R60 for memory). -/
def Obligations.StepKeepsTheInvariant : Prop :=
  ∀ s t : State, s.Inv → step s = .next t → t.Inv

/-! ## The parameter `FONT` and the cause codes (00_scope.md, 20_memory.md, 60_exceptions.md) -/

/-- R8, R39, R68: `FONT` is a parameter of the machine, not state: no event changes it. Decision D24; how the model holds it is
log entry 10. -/
def Obligations.NoEventChangesTheFontParameter : Prop :=
  ∀ s t : State, step s = .next t → t.mem.font = s.mem.font

/-- The table of R238 (decision D10): 0 without a fault, 1 to 6 for the causes of a running machine, 7 for a refused load. -/
def Obligations.FaultCodesAreThoseOfTheTable : Prop :=
  (∀ s : State, s.fault = none → s.faultCode = 0) ∧
  (∀ (s : State) (f : FaultRecord), s.fault = some f → s.faultCode =
    match f.cause with
    | .decodeError => 1
    | .stackOverflow => 2
    | .stackUnderflow => 3
    | .fetchOutOfBounds => 4
    | .dataOutOfBounds => 5
    | .keyIndexOutOfRange => 6) ∧
  ∀ length : Nat, (Fault.romTooLarge length).code = 7
end

