-- ==== Sys2Proof/Laws/Decode.lean ====
section
/-! SUPPORT. The fields of the words that the encoder makes, and the bytes of a word. -/

namespace Sys2Proof

theorem wordOfBytes_extract (w : Word) : wordOfBytes (w.extractLsb' 8 8) (w.extractLsb' 0 8) = w := by
  apply BitVec.eq_of_getLsbD_eq
  intro i hi
  simp only [wordOfBytes, BitVec.getLsbD_append, BitVec.getLsbD_extractLsb']
  by_cases h : i < 8
  · simp [h]
  · have h1 : i - 8 < 8 := by omega
    have h2 : 8 + (i - 8) = i := by omega
    simp [h, h1, h2]

theorem nibble_toNat (k : Fin 16) : (nibble k).toNat = k.val := rfl

theorem formatNNN_toNat (c : BitVec 4) (nnn : Imm12) : (formatNNN c nnn).toNat = c.toNat * 4096 + nnn.toNat := by
  unfold formatNNN
  rw [BitVec.toNat_append, ← Nat.shiftLeft_add_eq_or_of_lt nnn.isLt, Nat.shiftLeft_eq]

theorem formatXNN_toNat (c : BitVec 4) (x : RegIdx) (nn : Byte) :
    (formatXNN c x nn).toNat = c.toNat * 4096 + x.val * 256 + nn.toNat := by
  unfold formatXNN
  rw [BitVec.toNat_append, ← Nat.shiftLeft_add_eq_or_of_lt nn.isLt, BitVec.toNat_append,
    ← Nat.shiftLeft_add_eq_or_of_lt (nibble x).isLt, nibble_toNat]
  simp only [Nat.shiftLeft_eq]; omega

theorem formatXYN_toNat (c : BitVec 4) (x y : RegIdx) (n : BitVec 4) :
    (formatXYN c x y n).toNat = c.toNat * 4096 + x.val * 256 + y.val * 16 + n.toNat := by
  unfold formatXYN
  rw [BitVec.toNat_append, ← Nat.shiftLeft_add_eq_or_of_lt n.isLt, BitVec.toNat_append,
    ← Nat.shiftLeft_add_eq_or_of_lt (nibble y).isLt, BitVec.toNat_append,
    ← Nat.shiftLeft_add_eq_or_of_lt (nibble x).isLt, nibble_toNat, nibble_toNat]
  simp only [Nat.shiftLeft_eq]; omega

/-! Each field as arithmetic on the word's number. -/

theorem fieldCategory_toNat (w : Word) : (fieldCategory w).toNat = w.toNat / 4096 := by
  simp only [fieldCategory, BitVec.extractLsb'_toNat, Nat.shiftRight_eq_div_pow]; have := w.isLt; omega
theorem fieldX_val (w : Word) : (fieldX w).val = w.toNat / 256 % 16 := by
  simp [fieldX, Nat.shiftRight_eq_div_pow]
theorem fieldY_val (w : Word) : (fieldY w).val = w.toNat / 16 % 16 := by
  simp [fieldY, Nat.shiftRight_eq_div_pow]
theorem fieldN_val (w : Word) : (fieldN w).val = w.toNat % 16 := by
  simp [fieldN]
theorem fieldNN_toNat (w : Word) : (fieldNN w).toNat = w.toNat % 256 := by
  simp [fieldNN, BitVec.extractLsb'_toNat]
theorem fieldNNN_toNat (w : Word) : (fieldNNN w).toNat = w.toNat % 4096 := by
  simp [fieldNNN, BitVec.extractLsb'_toNat]

/-! The fields of an encoded word. -/

@[simp] theorem fieldCategory_formatNNN (c : BitVec 4) (nnn : Imm12) : fieldCategory (formatNNN c nnn) = c := by
  apply BitVec.eq_of_toNat_eq; rw [fieldCategory_toNat, formatNNN_toNat]; have := nnn.isLt; omega
@[simp] theorem fieldNNN_formatNNN (c : BitVec 4) (nnn : Imm12) : fieldNNN (formatNNN c nnn) = nnn := by
  apply BitVec.eq_of_toNat_eq; rw [fieldNNN_toNat, formatNNN_toNat]; have := nnn.isLt; omega
@[simp] theorem fieldCategory_formatXNN (c : BitVec 4) (x : RegIdx) (nn : Byte) :
    fieldCategory (formatXNN c x nn) = c := by
  apply BitVec.eq_of_toNat_eq; rw [fieldCategory_toNat, formatXNN_toNat]; have := nn.isLt; omega
@[simp] theorem fieldX_formatXNN (c : BitVec 4) (x : RegIdx) (nn : Byte) : fieldX (formatXNN c x nn) = x := by
  apply Fin.ext; rw [fieldX_val, formatXNN_toNat]; have := nn.isLt; omega
@[simp] theorem fieldNN_formatXNN (c : BitVec 4) (x : RegIdx) (nn : Byte) : fieldNN (formatXNN c x nn) = nn := by
  apply BitVec.eq_of_toNat_eq; rw [fieldNN_toNat, formatXNN_toNat]; have := nn.isLt; omega
@[simp] theorem fieldCategory_formatXYN (c : BitVec 4) (x y : RegIdx) (n : BitVec 4) :
    fieldCategory (formatXYN c x y n) = c := by
  apply BitVec.eq_of_toNat_eq; rw [fieldCategory_toNat, formatXYN_toNat]; have := n.isLt; omega
@[simp] theorem fieldX_formatXYN (c : BitVec 4) (x y : RegIdx) (n : BitVec 4) : fieldX (formatXYN c x y n) = x := by
  apply Fin.ext; rw [fieldX_val, formatXYN_toNat]; have := n.isLt; omega
@[simp] theorem fieldY_formatXYN (c : BitVec 4) (x y : RegIdx) (n : BitVec 4) : fieldY (formatXYN c x y n) = y := by
  apply Fin.ext; rw [fieldY_val, formatXYN_toNat]; have := n.isLt; omega
@[simp] theorem fieldN_formatXYN (c : BitVec 4) (x y : RegIdx) (n : BitVec 4) :
    (fieldN (formatXYN c x y n)).val = n.toNat := by
  rw [fieldN_val, formatXYN_toNat]; have := n.isLt; omega

end Sys2Proof
end

