-- ==== Sys2Proof/Laws/Display.lean ====
section
/-! SUPPORT. What drawing a pixel, a row and a sprite does to every pixel and to the collision flag. -/

namespace Sys2Proof.Machine

/-- Distinct places of the grid are distinct elements of the framebuffer (R32). -/
theorem element_inj {r c r' c' : Nat} (hc : c < 64) (hc' : c' < 64) :
    r * 64 + c = r' * 64 + c' ↔ r = r' ∧ c = c' := by omega

@[simp] theorem Framebuffer.pixel_zero (r c : Nat) : Framebuffer.pixel (0#2048) r c = false := by
  simp [Framebuffer.pixel]

/-- XORing one pixel changes that pixel only. -/
theorem Framebuffer.pixel_xorPixel (fb : Framebuffer) {r c r' c' : Nat} (b : Bool)
    (hc : c < 64) (hr' : r' < 32) (hc' : c' < 64) :
    (fb.xorPixel r c b).pixel r' c' = (fb.pixel r' c' ^^ (decide (r' = r ∧ c' = c) && b)) := by
  have hk : r' * 64 + c' < 2048 := by omega
  simp only [Framebuffer.pixel, Framebuffer.xorPixel, BitVec.getLsbD_xor, BitVec.getLsbD_shiftLeft,
    BitVec.getLsbD_setWidth, BitVec.getLsbD_ofBool, hk, decide_true, Bool.true_and]
  congr 1
  by_cases he : r' = r ∧ c' = c
  · obtain ⟨rfl, rfl⟩ := he
    simp
  · have hne : r' * 64 + c' ≠ r * 64 + c := fun h => he ((element_inj hc' hc).mp h)
    simp only [he, decide_false, Bool.false_and]
    rcases Nat.lt_or_ge (r' * 64 + c') (r * 64 + c) with h | h
    · simp [h]
    · have : ¬ (r' * 64 + c' - (r * 64 + c) = 0) := by omega
      simp [this]

/-- Whether the first `k` columns of a sprite row at column `x0` put a 1 bit on column `c`. -/
def rowBit (b : Byte) (x0 k c : Nat) : Bool := decide (x0 ≤ c ∧ c < x0 + k) && spriteBit b (c - x0)

@[simp] theorem rowBit_zero (b : Byte) (x0 c : Nat) : rowBit b x0 0 c = false := by
  simp [rowBit]

theorem rowBit_succ (b : Byte) (x0 k c : Nat) :
    rowBit b x0 (k + 1) c = (rowBit b x0 k c ^^ (decide (c = x0 + k) && spriteBit b k)) := by
  unfold rowBit
  by_cases h : c = x0 + k
  · subst h; simp
  · by_cases h2 : x0 ≤ c ∧ c < x0 + k
    · have h3 : x0 ≤ c ∧ c < x0 + (k + 1) := ⟨h2.1, by omega⟩
      simp [h, h2, h3]
    · have h3 : ¬ (x0 ≤ c ∧ c < x0 + (k + 1)) := by omega
      simp [h, h2, h3]

/-- A sprite row XORs its bits onto the row it is drawn on, and nothing else. -/
theorem Canvas.pixel_drawRow (v : Canvas) (b : Byte) (row x0 k : Nat) {r c : Nat} (hr : r < 32) (hc : c < 64) :
    (v.drawRow b row x0 k).fb.pixel r c = (v.fb.pixel r c ^^ (decide (r = row) && rowBit b x0 k c)) := by
  induction k with
  | zero => simp [Canvas.drawRow]
  | succ k ih =>
    rw [Canvas.drawRow, Canvas.drawPixel, rowBit_succ]
    split
    · rename_i hk
      rw [Framebuffer.pixel_xorPixel _ _ (by omega) hr hc, ih]
      by_cases h1 : r = row <;> by_cases h2 : c = x0 + k <;> simp [h1, h2]
    · rename_i hk
      have h2 : c ≠ x0 + k := by omega
      simp [ih, h2]

/-- A sprite row collides exactly where a pixel that was on meets a 1 bit. -/
theorem Canvas.hit_drawRow (v : Canvas) (b : Byte) {row : Nat} (x0 k : Nat) (hrow : row < 32) :
    (v.drawRow b row x0 k).hit = true ↔
      v.hit = true ∨ ∃ c, c < 64 ∧ v.fb.pixel row c = true ∧ rowBit b x0 k c = true := by
  induction k with
  | zero => simp [Canvas.drawRow]
  | succ k ih =>
    rw [Canvas.drawRow, Canvas.drawPixel]
    have hno : rowBit b x0 k (x0 + k) = false := by simp [rowBit]
    split
    · rename_i hk
      have hp : (v.drawRow b row x0 k).fb.pixel row (x0 + k) = v.fb.pixel row (x0 + k) := by
        rw [Canvas.pixel_drawRow _ _ _ _ _ hrow (by omega), hno]; simp
      simp only [Bool.or_eq_true, Bool.and_eq_true, ih, hp]
      constructor
      · rintro ((h | ⟨c, hc, h1, h2⟩) | ⟨h1, h2⟩)
        · exact .inl h
        · refine .inr ⟨c, hc, h1, ?_⟩
          rw [rowBit_succ, h2]
          have : c ≠ x0 + k := by rintro rfl; simp [hno] at h2
          simp [this]
        · refine .inr ⟨x0 + k, by omega, h1, ?_⟩
          rw [rowBit_succ, hno]; simp [h2]
      · rintro (h | ⟨c, hc, h1, h2⟩)
        · exact .inl (.inl h)
        · by_cases he : c = x0 + k
          · subst he
            rw [rowBit_succ, hno] at h2
            exact .inr ⟨h1, by simpa using h2⟩
          · refine .inl (.inr ⟨c, hc, h1, ?_⟩)
            rw [rowBit_succ] at h2
            simpa [he] using h2
    · rename_i hk
      rw [ih]
      have : ∀ c, c < 64 → rowBit b x0 (k + 1) c = rowBit b x0 k c := by
        intro c hc
        have : c ≠ x0 + k := by omega
        rw [rowBit_succ]; simp [this]
      constructor
      · rintro (h | ⟨c, hc, h1, h2⟩)
        · exact .inl h
        · exact .inr ⟨c, hc, h1, by rw [this c hc]; exact h2⟩
      · rintro (h | ⟨c, hc, h1, h2⟩)
        · exact .inl h
        · exact .inr ⟨c, hc, h1, by rw [← this c hc]; exact h2⟩

/-- The sprite bit that the first `rows` rows of the sprite at `a` put on the pixel at row `r`, column `c`. -/
def spriteBitAt (m : Memory) (a x0 y0 rows r c : Nat) : Bool :=
  decide (y0 ≤ r ∧ r < y0 + rows) && rowBit (m.read (a + (r - y0))) x0 8 c

@[simp] theorem spriteBitAt_zero (m : Memory) (a x0 y0 r c : Nat) : spriteBitAt m a x0 y0 0 r c = false := by
  simp [spriteBitAt]

theorem spriteBitAt_succ (m : Memory) (a x0 y0 rows r c : Nat) :
    spriteBitAt m a x0 y0 (rows + 1) r c =
      (spriteBitAt m a x0 y0 rows r c ^^ (decide (r = y0 + rows) && rowBit (m.read (a + rows)) x0 8 c)) := by
  unfold spriteBitAt
  by_cases h : r = y0 + rows
  · subst h; simp
  · by_cases h2 : y0 ≤ r ∧ r < y0 + rows
    · have h3 : y0 ≤ r ∧ r < y0 + (rows + 1) := ⟨h2.1, by omega⟩
      simp [h, h2, h3]
    · have h3 : ¬ (y0 ≤ r ∧ r < y0 + (rows + 1)) := by omega
      simp [h, h2, h3]

/-- A sprite XORs its bits onto the pixels it covers, and nothing else (R121). -/
theorem Canvas.pixel_drawRows (v : Canvas) (m : Memory) (a x0 y0 rows : Nat) {r c : Nat} (hr : r < 32) (hc : c < 64) :
    (v.drawRows m a x0 y0 rows).fb.pixel r c = (v.fb.pixel r c ^^ spriteBitAt m a x0 y0 rows r c) := by
  induction rows with
  | zero => simp [Canvas.drawRows]
  | succ rows ih =>
    rw [Canvas.drawRows, Canvas.pixel_drawRow _ _ _ _ _ hr hc, ih, spriteBitAt_succ, Bool.xor_assoc]

/-- A sprite collides exactly where a pixel that was on meets a 1 bit (R121): no pixel of it meets another. -/
theorem Canvas.hit_drawRows (v : Canvas) (m : Memory) (a x0 : Nat) {y0 rows : Nat} (hy : y0 + rows ≤ 32) :
    (v.drawRows m a x0 y0 rows).hit = true ↔
      v.hit = true ∨ ∃ r c, r < 32 ∧ c < 64 ∧ v.fb.pixel r c = true ∧ spriteBitAt m a x0 y0 rows r c = true := by
  induction rows with
  | zero => simp [Canvas.drawRows]
  | succ rows ih =>
    have hrow : y0 + rows < 32 := by omega
    have hno : ∀ c, spriteBitAt m a x0 y0 rows (y0 + rows) c = false := by simp [spriteBitAt]
    rw [Canvas.drawRows, Canvas.hit_drawRow _ _ _ _ hrow, ih (by omega)]
    have hp : ∀ c, c < 64 → (v.drawRows m a x0 y0 rows).fb.pixel (y0 + rows) c = v.fb.pixel (y0 + rows) c := by
      intro c hc
      rw [Canvas.pixel_drawRows _ _ _ _ _ _ hrow hc, hno]; simp
    constructor
    · rintro ((h | ⟨r, c, hr, hc, h1, h2⟩) | ⟨c, hc, h1, h2⟩)
      · exact .inl h
      · refine .inr ⟨r, c, hr, hc, h1, ?_⟩
        have : r ≠ y0 + rows := by rintro rfl; simp [hno] at h2
        rw [spriteBitAt_succ, h2]; simp [this]
      · refine .inr ⟨y0 + rows, c, hrow, hc, by rw [← hp c hc]; exact h1, ?_⟩
        rw [spriteBitAt_succ, hno, h2]; simp
    · rintro (h | ⟨r, c, hr, hc, h1, h2⟩)
      · exact .inl (.inl h)
      · by_cases he : r = y0 + rows
        · subst he
          rw [spriteBitAt_succ, hno] at h2
          exact .inr ⟨c, hc, by rw [hp c hc]; exact h1, by simpa using h2⟩
        · rw [spriteBitAt_succ] at h2
          exact .inl (.inr ⟨r, c, hr, hc, h1, by simpa [he] using h2⟩)

end Sys2Proof.Machine
end

