-- ==== Sys2Proof/Laws/Memory.lean ====
section
/-! SUPPORT. The laws of memory: a read after a write, the frame of a write, and that every memory operation keeps the
canonical form. -/

namespace Sys2Proof.Machine

/-- Above the font an unlisted address reads as 0x00. -/
theorem Memory.blank_above_font (font : Font) {a : Nat} (h : 0x050 ≤ a) : Memory.blank font a = 0x00 := by
  rw [Memory.blank, dif_neg (by omega)]

/-- Below 0x050 it reads as the font. -/
theorem Memory.blank_font (font : Font) (k : Fin 80) : Memory.blank font k.val = font[k.val] := by
  rw [Memory.blank, dif_pos k.isLt]

/-- A write leaves every other address as it was, in any list. -/
theorem readCells_writeCells_of_ne {font : Font} {m : List Host.Cell} {a b : Nat} {v : Byte} (h : b ≠ a) :
    readCells font (writeCells font m a v) b = readCells font m b := by
  induction m with
  | nil => by_cases hv : v = Memory.blank font a <;> simp [writeCells, readCells, hv, h]
  | cons c rest ih =>
    obtain ⟨d, w⟩ := c
    rcases Nat.lt_trichotomy a d with hd | rfl | hd
    · by_cases hv : v = Memory.blank font a <;> simp [writeCells, readCells, hd, hv, h]
    · by_cases hv : v = Memory.blank font a <;> simp [writeCells, readCells, hv, h]
    · have h1 : ¬ a < d := by omega
      have h2 : a ≠ d := by omega
      simp [writeCells, readCells, h1, h2, ih]

/-- Where every listed address is above `a`, `a` reads as an unlisted address. -/
theorem readCells_of_below {font : Font} {m : List Host.Cell} {a : Nat} (h : ∀ c ∈ m, a < c.1) : readCells font m a = Memory.blank font a := by
  induction m with
  | nil => rfl
  | cons c rest ih =>
    obtain ⟨d, w⟩ := c
    have hd : a < d := h (d, w) (by simp)
    have hne : a ≠ d := by omega
    simp [readCells, hne, ih fun c hc => h c (by simp [hc])]

/-- What `cellsWf` says of a list that is not empty. -/
theorem cellsWf_cons {font : Font} {a : Nat} {v : Byte} {rest : List Host.Cell} :
    cellsWf font ((a, v) :: rest) = true ↔
      a < 4096 ∧ v ≠ Memory.blank font a ∧ (∀ c ∈ rest, a < c.1) ∧ cellsWf font rest = true := by
  rw [cellsWf, Bool.and_eq_true, Bool.and_eq_true, Bool.and_eq_true, decide_eq_true_iff, bne_iff_ne,
    List.all_eq_true, and_assoc, and_assoc]
  simp only [decide_eq_true_iff, Config.memSize]

/-- A write is seen by the next read of its address. -/
theorem readCells_writeCells {font : Font} {m : List Host.Cell} (hm : cellsWf font m = true) (a : Nat) (v : Byte) :
    readCells font (writeCells font m a v) a = v := by
  induction m with
  | nil => by_cases hv : v = Memory.blank font a <;> simp [writeCells, readCells, hv]
  | cons c rest ih =>
    obtain ⟨d, w⟩ := c
    obtain ⟨-, -, habove, hrest⟩ := cellsWf_cons.mp hm
    rcases Nat.lt_trichotomy a d with hd | rfl | hd
    · by_cases hv : v = Memory.blank font a
      · have hne : a ≠ d := by omega
        have hb := readCells_of_below (font := font) (m := rest) (a := a)
          fun c hc => lt_trans hd (habove c hc)
        simp [writeCells, readCells, hd, hv, hne, hb]
      · simp [writeCells, readCells, hd, hv]
    · by_cases hv : v = Memory.blank font a
      · simp [writeCells, hv, readCells_of_below habove]
      · simp [writeCells, readCells, hv]
    · have h1 : ¬ a < d := by omega
      have h2 : a ≠ d := by omega
      simp [writeCells, readCells, h1, h2, ih hrest]

/-- The addresses listed after a write are the written one and those listed before. -/
theorem mem_writeCells {font : Font} {m : List Host.Cell} {a : Nat} {v : Byte} {c : Host.Cell} (h : c ∈ writeCells font m a v) :
    c.1 = a ∨ c ∈ m := by
  induction m with
  | nil =>
    by_cases hv : v = Memory.blank font a <;> simp [writeCells, hv] at h
    exact .inl (by simp [h])
  | cons d rest ih =>
    obtain ⟨b, w⟩ := d
    by_cases h1 : a < b <;> by_cases h2 : a = b <;> by_cases hv : v = Memory.blank font a <;>
      simp_all [writeCells] <;> grind

/-- A write to an address of memory keeps the canonical form. -/
theorem writeCells_wf {font : Font} {m : List Host.Cell} (hm : cellsWf font m = true) {a : Nat} (ha : a < 4096) (v : Byte) :
    cellsWf font (writeCells font m a v) = true := by
  induction m with
  | nil => by_cases hv : v = Memory.blank font a <;> simp [writeCells, cellsWf, Config.memSize, hv, ha]
  | cons c rest ih =>
    obtain ⟨d, w⟩ := c
    obtain ⟨hd4, hw, habove, hrest⟩ := cellsWf_cons.mp hm
    rcases Nat.lt_trichotomy a d with hd | rfl | hd
    · by_cases hv : v = Memory.blank font a
      · simpa [writeCells, hd, hv] using hm
      · have hall : ∀ c ∈ ((d, w) :: rest : List Host.Cell), a < c.1 := by
          intro c hc
          rcases List.mem_cons.mp hc with rfl | hc
          · exact hd
          · exact lt_trans hd (habove c hc)
        simpa [writeCells, hd, hv] using cellsWf_cons.mpr ⟨ha, hv, hall, hm⟩
    · by_cases hv : v = Memory.blank font a
      · simpa [writeCells, hv] using hrest
      · simpa [writeCells, hv] using cellsWf_cons.mpr ⟨ha, hv, habove, hrest⟩
    · have h1 : ¬ a < d := by omega
      have h2 : a ≠ d := by omega
      have hall : ∀ c ∈ writeCells font rest a v, d < c.1 := by
        intro c hc
        rcases mem_writeCells hc with h | h
        · omega
        · exact habove c h
      simpa [writeCells, h1, h2] using cellsWf_cons.mpr ⟨hd4, hw, hall, ih hrest⟩

/-! The same of a memory; the font is the same after every write -/

@[simp] theorem Memory.write_font (m : Memory) (a : Nat) (v : Byte) : (m.write a v).font = m.font := rfl

@[simp] theorem Memory.writeBytes_font (vs : List Byte) (m : Memory) (a : Nat) : (m.writeBytes a vs).font = m.font := by
  induction vs generalizing m a with
  | nil => rfl
  | cons v vs ih => exact ih (m.write a v) (a + 1)

@[simp] theorem Memory.ofRom_font (font : Font) (rom : List Byte) : (Memory.ofRom font rom).font = font :=
  Memory.writeBytes_font rom _ _

@[simp] theorem Memory.read_empty (font : Font) (a : Nat) :
    Memory.read { font := font, cells := [] } a = Memory.blank font a := rfl

theorem Memory.read_write_of_ne {m : Memory} {a b : Nat} {v : Byte} (h : b ≠ a) : (m.write a v).read b = m.read b :=
  readCells_writeCells_of_ne h

theorem Memory.read_write {m : Memory} (hm : m.wf = true) (a : Nat) (v : Byte) : (m.write a v).read a = v :=
  readCells_writeCells hm a v

theorem Memory.write_wf {m : Memory} (hm : m.wf = true) {a : Nat} (ha : a < 4096) (v : Byte) : (m.write a v).wf = true :=
  writeCells_wf hm ha v

/-- Writing bytes leaves every address outside them as it was, in any list. -/
theorem Memory.read_writeBytes_of_not_mem {vs : List Byte} {m : Memory} {a b : Nat}
    (h : b < a ∨ a + vs.length ≤ b) : (m.writeBytes a vs).read b = m.read b := by
  induction vs generalizing m a with
  | nil => rfl
  | cons v vs ih =>
    simp only [List.length_cons] at h
    rw [Memory.writeBytes, ih (by omega), Memory.read_write_of_ne (by omega)]

/-- Writing bytes inside memory keeps the canonical form. -/
theorem Memory.writeBytes_wf {vs : List Byte} {m : Memory} (hm : m.wf = true) {a : Nat}
    (ha : a + vs.length ≤ 4096) : (m.writeBytes a vs).wf = true := by
  induction vs generalizing m a with
  | nil => exact hm
  | cons v vs ih =>
    simp only [List.length_cons] at ha
    exact ih (Memory.write_wf hm (by omega) v) (by omega)

/-- Each byte written is read back, inside memory. -/
theorem Memory.read_writeBytes {vs : List Byte} {m : Memory} (hm : m.wf = true) {a k : Nat}
    (ha : a + vs.length ≤ 4096) (hk : k < vs.length) : (m.writeBytes a vs).read (a + k) = vs[k] := by
  induction vs generalizing m a k with
  | nil => simp at hk
  | cons v vs ih =>
    simp only [List.length_cons] at ha hk
    have hw := Memory.write_wf hm (show a < 4096 by omega) v
    cases k with
    | zero =>
      rw [Memory.writeBytes, Memory.read_writeBytes_of_not_mem (by omega)]
      simpa using Memory.read_write hm a v
    | succ k =>
      have := ih hw (a := a + 1) (k := k) (by omega) (by omega)
      rw [Memory.writeBytes, show a + (k + 1) = a + 1 + k by omega]
      simpa using this

/-- Memory after a load is canonical. -/
theorem Memory.ofRom_wf (font : Font) {rom : List Byte} (h : rom.length ≤ 3584) : (Memory.ofRom font rom).wf = true :=
  Memory.writeBytes_wf rfl (by simp [Config.programBase]; omega)

/-- A memory that lists nothing is canonical. -/
theorem Memory.wf_empty (font : Font) : Memory.wf { font := font, cells := [] } = true := rfl

/-- A loaded register is the byte at its address, and the registers after the loaded ones keep their values. -/
theorem loadRegFile_get (m : Memory) (a : Nat) (v : RegFile) (k : Nat) (r : RegIdx) :
    (loadRegFile m a v k)[r.val] = if r.val < k then m.read (a + r.val) else v[r.val] := by
  induction k with
  | zero => simp [loadRegFile]
  | succ k ih =>
    rw [loadRegFile, Vector.getElem_setIfInBounds]
    by_cases h : k = r.val
    · subst h; simp
    · rw [if_neg h, ih]
      by_cases h2 : r.val < k
      · rw [if_pos h2, if_pos (by omega)]
      · rw [if_neg h2, if_neg (by omega)]

end Sys2Proof.Machine
end

