-- ==== Sys2Proof/Laws/State.lean ====
section
/-! SUPPORT. One lemma per field per update of the state, so that no later proof unfolds a record update, and how each
update reads through `State.reg` and `State.sp`. -/

namespace Sys2Proof.Machine

variable (s : State)

/-! `State.setReg` -/

@[simp] theorem State.setReg_V (x : RegIdx) (v : Byte) : (s.setReg x v).V = s.V.set x.val v := rfl
@[simp] theorem State.setReg_I (x : RegIdx) (v : Byte) : (s.setReg x v).I = s.I := rfl
@[simp] theorem State.setReg_pc (x : RegIdx) (v : Byte) : (s.setReg x v).pc = s.pc := rfl
@[simp] theorem State.setReg_depth (x : RegIdx) (v : Byte) : (s.setReg x v).depth = s.depth := rfl
@[simp] theorem State.setReg_stack (x : RegIdx) (v : Byte) : (s.setReg x v).stack = s.stack := rfl
@[simp] theorem State.setReg_DT (x : RegIdx) (v : Byte) : (s.setReg x v).DT = s.DT := rfl
@[simp] theorem State.setReg_ST (x : RegIdx) (v : Byte) : (s.setReg x v).ST = s.ST := rfl
@[simp] theorem State.setReg_FB (x : RegIdx) (v : Byte) : (s.setReg x v).FB = s.FB := rfl
@[simp] theorem State.setReg_mem (x : RegIdx) (v : Byte) : (s.setReg x v).mem = s.mem := rfl
@[simp] theorem State.setReg_status (x : RegIdx) (v : Byte) : (s.setReg x v).status = s.status := rfl
@[simp] theorem State.setReg_prevKeys (x : RegIdx) (v : Byte) : (s.setReg x v).prevKeys = s.prevKeys := rfl
@[simp] theorem State.setReg_fault (x : RegIdx) (v : Byte) : (s.setReg x v).fault = s.fault := rfl
@[simp] theorem State.setReg_loaded (x : RegIdx) (v : Byte) : (s.setReg x v).loaded = s.loaded := rfl
@[simp] theorem State.setReg_io (x : RegIdx) (v : Byte) : (s.setReg x v).io = s.io := rfl

/-! `State.setV` -/

@[simp] theorem State.setV_V (v : RegFile) : (s.setV v).V = v := rfl
@[simp] theorem State.setV_I (v : RegFile) : (s.setV v).I = s.I := rfl
@[simp] theorem State.setV_pc (v : RegFile) : (s.setV v).pc = s.pc := rfl
@[simp] theorem State.setV_depth (v : RegFile) : (s.setV v).depth = s.depth := rfl
@[simp] theorem State.setV_stack (v : RegFile) : (s.setV v).stack = s.stack := rfl
@[simp] theorem State.setV_DT (v : RegFile) : (s.setV v).DT = s.DT := rfl
@[simp] theorem State.setV_ST (v : RegFile) : (s.setV v).ST = s.ST := rfl
@[simp] theorem State.setV_FB (v : RegFile) : (s.setV v).FB = s.FB := rfl
@[simp] theorem State.setV_mem (v : RegFile) : (s.setV v).mem = s.mem := rfl
@[simp] theorem State.setV_status (v : RegFile) : (s.setV v).status = s.status := rfl
@[simp] theorem State.setV_prevKeys (v : RegFile) : (s.setV v).prevKeys = s.prevKeys := rfl
@[simp] theorem State.setV_fault (v : RegFile) : (s.setV v).fault = s.fault := rfl
@[simp] theorem State.setV_loaded (v : RegFile) : (s.setV v).loaded = s.loaded := rfl
@[simp] theorem State.setV_io (v : RegFile) : (s.setV v).io = s.io := rfl

/-! `State.setPc` -/

@[simp] theorem State.setPc_V (a : Word) : (s.setPc a).V = s.V := rfl
@[simp] theorem State.setPc_I (a : Word) : (s.setPc a).I = s.I := rfl
@[simp] theorem State.setPc_pc (a : Word) : (s.setPc a).pc = a := rfl
@[simp] theorem State.setPc_depth (a : Word) : (s.setPc a).depth = s.depth := rfl
@[simp] theorem State.setPc_stack (a : Word) : (s.setPc a).stack = s.stack := rfl
@[simp] theorem State.setPc_DT (a : Word) : (s.setPc a).DT = s.DT := rfl
@[simp] theorem State.setPc_ST (a : Word) : (s.setPc a).ST = s.ST := rfl
@[simp] theorem State.setPc_FB (a : Word) : (s.setPc a).FB = s.FB := rfl
@[simp] theorem State.setPc_mem (a : Word) : (s.setPc a).mem = s.mem := rfl
@[simp] theorem State.setPc_status (a : Word) : (s.setPc a).status = s.status := rfl
@[simp] theorem State.setPc_prevKeys (a : Word) : (s.setPc a).prevKeys = s.prevKeys := rfl
@[simp] theorem State.setPc_fault (a : Word) : (s.setPc a).fault = s.fault := rfl
@[simp] theorem State.setPc_loaded (a : Word) : (s.setPc a).loaded = s.loaded := rfl
@[simp] theorem State.setPc_io (a : Word) : (s.setPc a).io = s.io := rfl

/-! `State.advance` -/

@[simp] theorem State.advance_V : (s.advance).V = s.V := rfl
@[simp] theorem State.advance_I : (s.advance).I = s.I := rfl
@[simp] theorem State.advance_pc : (s.advance).pc = s.pc + 2 := rfl
@[simp] theorem State.advance_depth : (s.advance).depth = s.depth := rfl
@[simp] theorem State.advance_stack : (s.advance).stack = s.stack := rfl
@[simp] theorem State.advance_DT : (s.advance).DT = s.DT := rfl
@[simp] theorem State.advance_ST : (s.advance).ST = s.ST := rfl
@[simp] theorem State.advance_FB : (s.advance).FB = s.FB := rfl
@[simp] theorem State.advance_mem : (s.advance).mem = s.mem := rfl
@[simp] theorem State.advance_status : (s.advance).status = s.status := rfl
@[simp] theorem State.advance_prevKeys : (s.advance).prevKeys = s.prevKeys := rfl
@[simp] theorem State.advance_fault : (s.advance).fault = s.fault := rfl
@[simp] theorem State.advance_loaded : (s.advance).loaded = s.loaded := rfl
@[simp] theorem State.advance_io : (s.advance).io = s.io := rfl

/-! `State.advanceSkipIf` -/

@[simp] theorem State.advanceSkipIf_V (c : Bool) : (s.advanceSkipIf c).V = s.V := rfl
@[simp] theorem State.advanceSkipIf_I (c : Bool) : (s.advanceSkipIf c).I = s.I := rfl
@[simp] theorem State.advanceSkipIf_pc (c : Bool) :
    (s.advanceSkipIf c).pc = if c = true then s.pc + 4 else s.pc + 2 := by
  cases c
  · simp [State.advanceSkipIf]
  · exact BitVec.add_assoc s.pc 2 2
@[simp] theorem State.advanceSkipIf_depth (c : Bool) : (s.advanceSkipIf c).depth = s.depth := rfl
@[simp] theorem State.advanceSkipIf_stack (c : Bool) : (s.advanceSkipIf c).stack = s.stack := rfl
@[simp] theorem State.advanceSkipIf_DT (c : Bool) : (s.advanceSkipIf c).DT = s.DT := rfl
@[simp] theorem State.advanceSkipIf_ST (c : Bool) : (s.advanceSkipIf c).ST = s.ST := rfl
@[simp] theorem State.advanceSkipIf_FB (c : Bool) : (s.advanceSkipIf c).FB = s.FB := rfl
@[simp] theorem State.advanceSkipIf_mem (c : Bool) : (s.advanceSkipIf c).mem = s.mem := rfl
@[simp] theorem State.advanceSkipIf_status (c : Bool) : (s.advanceSkipIf c).status = s.status := rfl
@[simp] theorem State.advanceSkipIf_prevKeys (c : Bool) : (s.advanceSkipIf c).prevKeys = s.prevKeys := rfl
@[simp] theorem State.advanceSkipIf_fault (c : Bool) : (s.advanceSkipIf c).fault = s.fault := rfl
@[simp] theorem State.advanceSkipIf_loaded (c : Bool) : (s.advanceSkipIf c).loaded = s.loaded := rfl
@[simp] theorem State.advanceSkipIf_io (c : Bool) : (s.advanceSkipIf c).io = s.io := rfl

/-! `State.setI` -/

@[simp] theorem State.setI_V (a : Word) : (s.setI a).V = s.V := rfl
@[simp] theorem State.setI_I (a : Word) : (s.setI a).I = a := rfl
@[simp] theorem State.setI_pc (a : Word) : (s.setI a).pc = s.pc := rfl
@[simp] theorem State.setI_depth (a : Word) : (s.setI a).depth = s.depth := rfl
@[simp] theorem State.setI_stack (a : Word) : (s.setI a).stack = s.stack := rfl
@[simp] theorem State.setI_DT (a : Word) : (s.setI a).DT = s.DT := rfl
@[simp] theorem State.setI_ST (a : Word) : (s.setI a).ST = s.ST := rfl
@[simp] theorem State.setI_FB (a : Word) : (s.setI a).FB = s.FB := rfl
@[simp] theorem State.setI_mem (a : Word) : (s.setI a).mem = s.mem := rfl
@[simp] theorem State.setI_status (a : Word) : (s.setI a).status = s.status := rfl
@[simp] theorem State.setI_prevKeys (a : Word) : (s.setI a).prevKeys = s.prevKeys := rfl
@[simp] theorem State.setI_fault (a : Word) : (s.setI a).fault = s.fault := rfl
@[simp] theorem State.setI_loaded (a : Word) : (s.setI a).loaded = s.loaded := rfl
@[simp] theorem State.setI_io (a : Word) : (s.setI a).io = s.io := rfl

/-! `State.setDT` -/

@[simp] theorem State.setDT_V (v : Byte) : (s.setDT v).V = s.V := rfl
@[simp] theorem State.setDT_I (v : Byte) : (s.setDT v).I = s.I := rfl
@[simp] theorem State.setDT_pc (v : Byte) : (s.setDT v).pc = s.pc := rfl
@[simp] theorem State.setDT_depth (v : Byte) : (s.setDT v).depth = s.depth := rfl
@[simp] theorem State.setDT_stack (v : Byte) : (s.setDT v).stack = s.stack := rfl
@[simp] theorem State.setDT_DT (v : Byte) : (s.setDT v).DT = v := rfl
@[simp] theorem State.setDT_ST (v : Byte) : (s.setDT v).ST = s.ST := rfl
@[simp] theorem State.setDT_FB (v : Byte) : (s.setDT v).FB = s.FB := rfl
@[simp] theorem State.setDT_mem (v : Byte) : (s.setDT v).mem = s.mem := rfl
@[simp] theorem State.setDT_status (v : Byte) : (s.setDT v).status = s.status := rfl
@[simp] theorem State.setDT_prevKeys (v : Byte) : (s.setDT v).prevKeys = s.prevKeys := rfl
@[simp] theorem State.setDT_fault (v : Byte) : (s.setDT v).fault = s.fault := rfl
@[simp] theorem State.setDT_loaded (v : Byte) : (s.setDT v).loaded = s.loaded := rfl
@[simp] theorem State.setDT_io (v : Byte) : (s.setDT v).io = s.io := rfl

/-! `State.setST` -/

@[simp] theorem State.setST_V (v : Byte) : (s.setST v).V = s.V := rfl
@[simp] theorem State.setST_I (v : Byte) : (s.setST v).I = s.I := rfl
@[simp] theorem State.setST_pc (v : Byte) : (s.setST v).pc = s.pc := rfl
@[simp] theorem State.setST_depth (v : Byte) : (s.setST v).depth = s.depth := rfl
@[simp] theorem State.setST_stack (v : Byte) : (s.setST v).stack = s.stack := rfl
@[simp] theorem State.setST_DT (v : Byte) : (s.setST v).DT = s.DT := rfl
@[simp] theorem State.setST_ST (v : Byte) : (s.setST v).ST = v := rfl
@[simp] theorem State.setST_FB (v : Byte) : (s.setST v).FB = s.FB := rfl
@[simp] theorem State.setST_mem (v : Byte) : (s.setST v).mem = s.mem := rfl
@[simp] theorem State.setST_status (v : Byte) : (s.setST v).status = s.status := rfl
@[simp] theorem State.setST_prevKeys (v : Byte) : (s.setST v).prevKeys = s.prevKeys := rfl
@[simp] theorem State.setST_fault (v : Byte) : (s.setST v).fault = s.fault := rfl
@[simp] theorem State.setST_loaded (v : Byte) : (s.setST v).loaded = s.loaded := rfl
@[simp] theorem State.setST_io (v : Byte) : (s.setST v).io = s.io := rfl

/-! `State.setMem` -/

@[simp] theorem State.setMem_V (m : Memory) : (s.setMem m).V = s.V := rfl
@[simp] theorem State.setMem_I (m : Memory) : (s.setMem m).I = s.I := rfl
@[simp] theorem State.setMem_pc (m : Memory) : (s.setMem m).pc = s.pc := rfl
@[simp] theorem State.setMem_depth (m : Memory) : (s.setMem m).depth = s.depth := rfl
@[simp] theorem State.setMem_stack (m : Memory) : (s.setMem m).stack = s.stack := rfl
@[simp] theorem State.setMem_DT (m : Memory) : (s.setMem m).DT = s.DT := rfl
@[simp] theorem State.setMem_ST (m : Memory) : (s.setMem m).ST = s.ST := rfl
@[simp] theorem State.setMem_FB (m : Memory) : (s.setMem m).FB = s.FB := rfl
@[simp] theorem State.setMem_mem (m : Memory) : (s.setMem m).mem = m := rfl
@[simp] theorem State.setMem_status (m : Memory) : (s.setMem m).status = s.status := rfl
@[simp] theorem State.setMem_prevKeys (m : Memory) : (s.setMem m).prevKeys = s.prevKeys := rfl
@[simp] theorem State.setMem_fault (m : Memory) : (s.setMem m).fault = s.fault := rfl
@[simp] theorem State.setMem_loaded (m : Memory) : (s.setMem m).loaded = s.loaded := rfl
@[simp] theorem State.setMem_io (m : Memory) : (s.setMem m).io = s.io := rfl

/-! `State.display` -/

@[simp] theorem State.display_V (fb : Framebuffer) : (s.display fb).V = s.V := rfl
@[simp] theorem State.display_I (fb : Framebuffer) : (s.display fb).I = s.I := rfl
@[simp] theorem State.display_pc (fb : Framebuffer) : (s.display fb).pc = s.pc := rfl
@[simp] theorem State.display_depth (fb : Framebuffer) : (s.display fb).depth = s.depth := rfl
@[simp] theorem State.display_stack (fb : Framebuffer) : (s.display fb).stack = s.stack := rfl
@[simp] theorem State.display_DT (fb : Framebuffer) : (s.display fb).DT = s.DT := rfl
@[simp] theorem State.display_ST (fb : Framebuffer) : (s.display fb).ST = s.ST := rfl
@[simp] theorem State.display_FB (fb : Framebuffer) : (s.display fb).FB = fb := rfl
@[simp] theorem State.display_mem (fb : Framebuffer) : (s.display fb).mem = s.mem := rfl
@[simp] theorem State.display_status (fb : Framebuffer) : (s.display fb).status = s.status := rfl
@[simp] theorem State.display_prevKeys (fb : Framebuffer) : (s.display fb).prevKeys = s.prevKeys := rfl
@[simp] theorem State.display_fault (fb : Framebuffer) : (s.display fb).fault = s.fault := rfl
@[simp] theorem State.display_loaded (fb : Framebuffer) : (s.display fb).loaded = s.loaded := rfl
@[simp] theorem State.display_io (fb : Framebuffer) : (s.display fb).io = { s.io with redraw := true } := rfl

/-! `State.latch` -/

@[simp] theorem State.latch_V (keys : Word) (rnd : Byte) : (s.latch keys rnd).V = s.V := rfl
@[simp] theorem State.latch_I (keys : Word) (rnd : Byte) : (s.latch keys rnd).I = s.I := rfl
@[simp] theorem State.latch_pc (keys : Word) (rnd : Byte) : (s.latch keys rnd).pc = s.pc := rfl
@[simp] theorem State.latch_depth (keys : Word) (rnd : Byte) : (s.latch keys rnd).depth = s.depth := rfl
@[simp] theorem State.latch_stack (keys : Word) (rnd : Byte) : (s.latch keys rnd).stack = s.stack := rfl
@[simp] theorem State.latch_DT (keys : Word) (rnd : Byte) : (s.latch keys rnd).DT = s.DT := rfl
@[simp] theorem State.latch_ST (keys : Word) (rnd : Byte) : (s.latch keys rnd).ST = s.ST := rfl
@[simp] theorem State.latch_FB (keys : Word) (rnd : Byte) : (s.latch keys rnd).FB = s.FB := rfl
@[simp] theorem State.latch_mem (keys : Word) (rnd : Byte) : (s.latch keys rnd).mem = s.mem := rfl
@[simp] theorem State.latch_status (keys : Word) (rnd : Byte) : (s.latch keys rnd).status = s.status := rfl
@[simp] theorem State.latch_prevKeys (keys : Word) (rnd : Byte) : (s.latch keys rnd).prevKeys = s.prevKeys := rfl
@[simp] theorem State.latch_fault (keys : Word) (rnd : Byte) : (s.latch keys rnd).fault = s.fault := rfl
@[simp] theorem State.latch_loaded (keys : Word) (rnd : Byte) : (s.latch keys rnd).loaded = s.loaded := rfl
@[simp] theorem State.latch_io (keys : Word) (rnd : Byte) : (s.latch keys rnd).io = { s.io with keys := keys, rnd := rnd, redraw := false } := rfl

/-! `State.report` -/

@[simp] theorem State.report_V : (s.report).V = s.V := rfl
@[simp] theorem State.report_I : (s.report).I = s.I := rfl
@[simp] theorem State.report_pc : (s.report).pc = s.pc := rfl
@[simp] theorem State.report_depth : (s.report).depth = s.depth := rfl
@[simp] theorem State.report_stack : (s.report).stack = s.stack := rfl
@[simp] theorem State.report_DT : (s.report).DT = s.DT := rfl
@[simp] theorem State.report_ST : (s.report).ST = s.ST := rfl
@[simp] theorem State.report_FB : (s.report).FB = s.FB := rfl
@[simp] theorem State.report_mem : (s.report).mem = s.mem := rfl
@[simp] theorem State.report_status : (s.report).status = s.status := rfl
@[simp] theorem State.report_prevKeys : (s.report).prevKeys = s.prevKeys := rfl
@[simp] theorem State.report_fault : (s.report).fault = s.fault := rfl
@[simp] theorem State.report_loaded : (s.report).loaded = s.loaded := rfl
@[simp] theorem State.report_io : (s.report).io = { s.io with soundActive := s.soundActive } := rfl

/-! `State.raise` -/

@[simp] theorem State.raise_V (c : FaultCause) (op : Word) (n : Nat) : (s.raise c op n).V = s.V := rfl
@[simp] theorem State.raise_I (c : FaultCause) (op : Word) (n : Nat) : (s.raise c op n).I = s.I := rfl
@[simp] theorem State.raise_pc (c : FaultCause) (op : Word) (n : Nat) : (s.raise c op n).pc = s.pc := rfl
@[simp] theorem State.raise_depth (c : FaultCause) (op : Word) (n : Nat) : (s.raise c op n).depth = s.depth := rfl
@[simp] theorem State.raise_stack (c : FaultCause) (op : Word) (n : Nat) : (s.raise c op n).stack = s.stack := rfl
@[simp] theorem State.raise_DT (c : FaultCause) (op : Word) (n : Nat) : (s.raise c op n).DT = s.DT := rfl
@[simp] theorem State.raise_ST (c : FaultCause) (op : Word) (n : Nat) : (s.raise c op n).ST = s.ST := rfl
@[simp] theorem State.raise_FB (c : FaultCause) (op : Word) (n : Nat) : (s.raise c op n).FB = s.FB := rfl
@[simp] theorem State.raise_mem (c : FaultCause) (op : Word) (n : Nat) : (s.raise c op n).mem = s.mem := rfl
@[simp] theorem State.raise_status (c : FaultCause) (op : Word) (n : Nat) : (s.raise c op n).status = s.status := rfl
@[simp] theorem State.raise_prevKeys (c : FaultCause) (op : Word) (n : Nat) : (s.raise c op n).prevKeys = s.prevKeys := rfl
@[simp] theorem State.raise_fault (c : FaultCause) (op : Word) (n : Nat) : (s.raise c op n).fault = some { cause := c, pc0 := s.pc, op := op, info := n } := rfl
@[simp] theorem State.raise_loaded (c : FaultCause) (op : Word) (n : Nat) : (s.raise c op n).loaded = s.loaded := rfl
@[simp] theorem State.raise_io (c : FaultCause) (op : Word) (n : Nat) : (s.raise c op n).io = s.io := rfl

/-! `State.setResultAndFlag` -/

@[simp] theorem State.setResultAndFlag_V (x : RegIdx) (v : Byte) (b : Bool) : (s.setResultAndFlag x v b).V = (s.V.set x.val v).set 15 (flagByte b) := rfl
@[simp] theorem State.setResultAndFlag_I (x : RegIdx) (v : Byte) (b : Bool) : (s.setResultAndFlag x v b).I = s.I := rfl
@[simp] theorem State.setResultAndFlag_pc (x : RegIdx) (v : Byte) (b : Bool) : (s.setResultAndFlag x v b).pc = s.pc := rfl
@[simp] theorem State.setResultAndFlag_depth (x : RegIdx) (v : Byte) (b : Bool) : (s.setResultAndFlag x v b).depth = s.depth := rfl
@[simp] theorem State.setResultAndFlag_stack (x : RegIdx) (v : Byte) (b : Bool) : (s.setResultAndFlag x v b).stack = s.stack := rfl
@[simp] theorem State.setResultAndFlag_DT (x : RegIdx) (v : Byte) (b : Bool) : (s.setResultAndFlag x v b).DT = s.DT := rfl
@[simp] theorem State.setResultAndFlag_ST (x : RegIdx) (v : Byte) (b : Bool) : (s.setResultAndFlag x v b).ST = s.ST := rfl
@[simp] theorem State.setResultAndFlag_FB (x : RegIdx) (v : Byte) (b : Bool) : (s.setResultAndFlag x v b).FB = s.FB := rfl
@[simp] theorem State.setResultAndFlag_mem (x : RegIdx) (v : Byte) (b : Bool) : (s.setResultAndFlag x v b).mem = s.mem := rfl
@[simp] theorem State.setResultAndFlag_status (x : RegIdx) (v : Byte) (b : Bool) : (s.setResultAndFlag x v b).status = s.status := rfl
@[simp] theorem State.setResultAndFlag_prevKeys (x : RegIdx) (v : Byte) (b : Bool) : (s.setResultAndFlag x v b).prevKeys = s.prevKeys := rfl
@[simp] theorem State.setResultAndFlag_fault (x : RegIdx) (v : Byte) (b : Bool) : (s.setResultAndFlag x v b).fault = s.fault := rfl
@[simp] theorem State.setResultAndFlag_loaded (x : RegIdx) (v : Byte) (b : Bool) : (s.setResultAndFlag x v b).loaded = s.loaded := rfl
@[simp] theorem State.setResultAndFlag_io (x : RegIdx) (v : Byte) (b : Bool) : (s.setResultAndFlag x v b).io = s.io := rfl

/-! Reading a register after an update -/

@[simp] theorem State.reg_setReg (x y : RegIdx) (v : Byte) :
    (s.setReg x v).reg y = if y = x then v else s.reg y := by
  unfold State.reg State.setReg
  by_cases h : y = x
  · subst h; simp
  · have : x.val ≠ y.val := fun e => h (Fin.ext e.symm)
    simp [h, this]

@[simp] theorem State.reg_setResultAndFlag (x y : RegIdx) (v : Byte) (b : Bool) :
    (s.setResultAndFlag x v b).reg y = if y = 15 then flagByte b else if y = x then v else s.reg y := by
  simp [State.setResultAndFlag, vf]

@[simp] theorem State.reg_setPc (a : Word) (y : RegIdx) : (s.setPc a).reg y = s.reg y := rfl
@[simp] theorem State.reg_advance (y : RegIdx) : (s.advance).reg y = s.reg y := rfl
@[simp] theorem State.reg_advanceSkipIf (c : Bool) (y : RegIdx) : (s.advanceSkipIf c).reg y = s.reg y := rfl
@[simp] theorem State.reg_setI (a : Word) (y : RegIdx) : (s.setI a).reg y = s.reg y := rfl
@[simp] theorem State.reg_setDT (v : Byte) (y : RegIdx) : (s.setDT v).reg y = s.reg y := rfl
@[simp] theorem State.reg_setST (v : Byte) (y : RegIdx) : (s.setST v).reg y = s.reg y := rfl
@[simp] theorem State.reg_setMem (m : Memory) (y : RegIdx) : (s.setMem m).reg y = s.reg y := rfl
@[simp] theorem State.reg_display (fb : Framebuffer) (y : RegIdx) : (s.display fb).reg y = s.reg y := rfl
@[simp] theorem State.reg_latch (keys : Word) (rnd : Byte) (y : RegIdx) : (s.latch keys rnd).reg y = s.reg y := rfl
@[simp] theorem State.reg_report (y : RegIdx) : (s.report).reg y = s.reg y := rfl
@[simp] theorem State.reg_raise (c : FaultCause) (op : Word) (n : Nat) (y : RegIdx) : (s.raise c op n).reg y = s.reg y := rfl

/-! The stack pointer after an update -/

@[simp] theorem State.sp_setReg (x : RegIdx) (v : Byte) : (s.setReg x v).sp = s.sp := rfl
@[simp] theorem State.sp_setV (v : RegFile) : (s.setV v).sp = s.sp := rfl
@[simp] theorem State.sp_setPc (a : Word) : (s.setPc a).sp = s.sp := rfl
@[simp] theorem State.sp_advance : (s.advance).sp = s.sp := rfl
@[simp] theorem State.sp_advanceSkipIf (c : Bool) : (s.advanceSkipIf c).sp = s.sp := rfl
@[simp] theorem State.sp_setI (a : Word) : (s.setI a).sp = s.sp := rfl
@[simp] theorem State.sp_setDT (v : Byte) : (s.setDT v).sp = s.sp := rfl
@[simp] theorem State.sp_setST (v : Byte) : (s.setST v).sp = s.sp := rfl
@[simp] theorem State.sp_setMem (m : Memory) : (s.setMem m).sp = s.sp := rfl
@[simp] theorem State.sp_display (fb : Framebuffer) : (s.display fb).sp = s.sp := rfl
@[simp] theorem State.sp_latch (keys : Word) (rnd : Byte) : (s.latch keys rnd).sp = s.sp := rfl
@[simp] theorem State.sp_report : (s.report).sp = s.sp := rfl
@[simp] theorem State.sp_raise (c : FaultCause) (op : Word) (n : Nat) : (s.raise c op n).sp = s.sp := rfl
@[simp] theorem State.sp_setResultAndFlag (x : RegIdx) (v : Byte) (b : Bool) : (s.setResultAndFlag x v b).sp = s.sp := rfl

/-! The flag byte -/

@[simp] theorem flagByte_true : flagByte true = 0x01 := rfl
@[simp] theorem flagByte_false : flagByte false = 0x00 := rfl

end Sys2Proof.Machine
end

