-- ==== Sys2Proof/Laws/Ops.lean ====
section
/-! SUPPORT. What each shared operation can do, said once: the bounds tests, the key search and the poll, the stores, the
draw, the timers. -/

namespace Sys2Proof.Machine

/-! Bounds tests (R235, R236) -/

theorem State.withData_of_le {s : State} {i : Instr} {k : Nat} {body : State} (h : s.dataAddr k ≤ 0xFFF) :
    s.withData i k body = .next body := by
  simp only [State.withData, Config.lastAddress, gt_iff_lt, if_neg (Nat.not_lt.mpr h)]

theorem State.withData_of_gt {s : State} {i : Instr} {k : Nat} {body : State} (h : 0xFFF < s.dataAddr k) :
    s.withData i k body = .next (s.raise .dataOutOfBounds (encode i) (s.dataAddr k)) := by
  simp only [State.withData, Config.lastAddress, gt_iff_lt, if_pos h]

/-- The bounds test either runs the body or takes the fault. -/
theorem State.withData_cases {s t : State} {i : Instr} {k : Nat} {body : State} (h : s.withData i k body = .next t) :
    (s.dataAddr k ≤ 0xFFF ∧ t = body) ∨
    (0xFFF < s.dataAddr k ∧ t = s.raise .dataOutOfBounds (encode i) (s.dataAddr k)) := by
  rcases Nat.lt_or_ge 0xFFF (s.dataAddr k) with hk | hk
  · rw [State.withData_of_gt hk] at h
    exact .inr ⟨hk, by cases h; rfl⟩
  · rw [State.withData_of_le hk] at h
    exact .inl ⟨hk, by cases h; rfl⟩

theorem State.withKey_of_le {s : State} {i : Instr} {k : Byte} {body : State} (h : k.toNat ≤ 15) :
    s.withKey i k body = .next body := by
  simp only [State.withKey, gt_iff_lt, if_neg (Nat.not_lt.mpr h)]

theorem State.withKey_of_gt {s : State} {i : Instr} {k : Byte} {body : State} (h : 15 < k.toNat) :
    s.withKey i k body = .next (s.raise .keyIndexOutOfRange (encode i) k.toNat) := by
  simp only [State.withKey, gt_iff_lt, if_pos h]

/-- The key test either runs the body or takes the fault. -/
theorem State.withKey_cases {s t : State} {i : Instr} {k : Byte} {body : State} (h : s.withKey i k body = .next t) :
    (k.toNat ≤ 15 ∧ t = body) ∨ (15 < k.toNat ∧ t = s.raise .keyIndexOutOfRange (encode i) k.toNat) := by
  rcases Nat.lt_or_ge 15 k.toNat with hk | hk
  · rw [State.withKey_of_gt hk] at h
    exact .inr ⟨hk, by cases h; rfl⟩
  · rw [State.withKey_of_le hk] at h
    exact .inl ⟨hk, by cases h; rfl⟩

/-! Stored bytes (R183, R184) -/

@[simp] theorem bcdDigits_length (v : Byte) : (bcdDigits v).length = 3 := rfl

@[simp] theorem State.regsUpTo_length (s : State) (x : RegIdx) : (s.regsUpTo x).length = x.val + 1 := by
  simp [State.regsUpTo]

theorem State.regsUpTo_get (s : State) (x r : RegIdx) (h : r.val < (s.regsUpTo x).length) :
    (s.regsUpTo x)[r.val] = s.reg r := by
  simp [State.regsUpTo, State.reg]

/-- The registers after `Fx65` (R185). -/
theorem State.reg_setV_loadRegFile (s : State) (m : Memory) (a k : Nat) (r : RegIdx) :
    (s.setV (loadRegFile m a s.V k)).reg r = if r.val < k then m.read (a + r.val) else s.reg r :=
  loadRegFile_get m a s.V k r

/-! The key search (R203) -/

theorem mem_keyIndexes (k : RegIdx) : k ∈ keyIndexes := by revert k; decide

theorem firstKey_eq_none {edges : Word} : firstKey edges = none ↔ ∀ k : RegIdx, edges.getLsbD k.val = false := by
  simp only [firstKey, List.find?_eq_none, Bool.not_eq_true]
  exact ⟨fun h k => h k (mem_keyIndexes k), fun h k _ => h k⟩

/-- The search gives the least key with an edge. -/
theorem firstKey_eq_some {edges : Word} {k : RegIdx} :
    firstKey edges = some k ↔
      edges.getLsbD k.val = true ∧ ∀ j : RegIdx, j < k → edges.getLsbD j.val = false := by
  have hs : keyIndexes.Pairwise (· < ·) := by decide
  constructor
  · intro h
    obtain ⟨hk, as, bs, hl, hno⟩ := List.find?_eq_some_iff_append.mp h
    refine ⟨hk, fun j hj => ?_⟩
    have hj' := mem_keyIndexes j
    rw [hl] at hj' hs
    rcases List.mem_append.mp hj' with h1 | h1
    · simpa using hno j h1
    · rcases List.mem_cons.mp h1 with rfl | h2
      · exact absurd hj (lt_irrefl _)
      · have := (List.pairwise_cons.mp (List.pairwise_append.mp hs).2.1).1 j h2
        exact absurd hj (lt_asymm this)
  · rintro ⟨hk, hlt⟩
    cases hf : firstKey edges with
    | none => exact absurd (firstKey_eq_none.mp hf k) (by simp [hk])
    | some j =>
      obtain ⟨hj, -⟩ : edges.getLsbD j.val = true ∧ True := ⟨by simpa using List.find?_some hf, trivial⟩
      obtain ⟨-, as, bs, hl, hno⟩ := List.find?_eq_some_iff_append.mp hf
      rcases lt_trichotomy j k with h | h | h
      · exact absurd (hlt j h) (by simp [hj])
      · rw [h]
      · have hk' := mem_keyIndexes k
        rw [hl] at hk' hs
        rcases List.mem_append.mp hk' with h1 | h1
        · have := hno k h1
          rw [hk] at this
          cases this
        · rcases List.mem_cons.mp h1 with h2 | h2
          · exact absurd h2 (ne_of_lt h)
          · have := (List.pairwise_cons.mp (List.pairwise_append.mp hs).2.1).1 k h2
            exact absurd h (lt_asymm this)

/-- A poll without an edge records the snapshot and does nothing else (R203). -/
theorem State.poll_of_none {s : State} (t : RegIdx) (h : firstKey (s.io.keys &&& ~~~s.prevKeys) = none) :
    s.poll t = { s with prevKeys := s.io.keys } := by
  simp [State.poll, h]

/-- A poll with an edge completes the `Fx0A` with the least key (R203). -/
theorem State.poll_of_some {s : State} (t : RegIdx) {k : RegIdx}
    (h : firstKey (s.io.keys &&& ~~~s.prevKeys) = some k) :
    s.poll t = { s with
      V := s.V.set t.val (BitVec.ofNat 8 k.val), pc := s.pc + 2, status := .running, prevKeys := s.io.keys } := by
  simp [State.poll, h, State.setReg, State.advance]

/-! The draw (R121) -/

theorem State.draw_FB_pixel (s : State) (x y : RegIdx) (rows : Nat) {r c : Nat} (hr : r < 32) (hc : c < 64) :
    (s.draw x y rows).FB.pixel r c =
      (s.FB.pixel r c ^^ spriteBitAt s.mem s.I.toNat (s.originCol x) (s.originRow y) rows r c) := by
  simp only [State.draw, State.advance_FB, State.setReg_FB, State.display_FB]
  exact Canvas.pixel_drawRows _ _ _ _ _ _ hr hc

/-- VF after a draw: the flag byte of the collision. -/
theorem State.draw_VF (s : State) (x y : RegIdx) {rows : Nat} (h : s.originRow y + rows ≤ 32) :
    ∃ b, (s.draw x y rows).reg 15 = flagByte b ∧
      (b = true ↔ ∃ r c, r < 32 ∧ c < 64 ∧ s.FB.pixel r c = true ∧
        spriteBitAt s.mem s.I.toNat (s.originCol x) (s.originRow y) rows r c = true) := by
  refine ⟨((Canvas.mk s.FB false).drawRows s.mem s.I.toNat (s.originCol x) (s.originRow y) rows).hit, ?_, ?_⟩
  · simp [State.draw, vf]
  · rw [Canvas.hit_drawRows _ _ _ _ h]; simp

/-! Timers (R221) -/

theorem countDown_toNat (t : Byte) : (countDown t).toNat = t.toNat - 1 := by
  unfold countDown
  split
  · rename_i h; subst h; rfl
  · rename_i h
    have h1 : t.toNat ≠ 0 := fun e => h (BitVec.eq_of_toNat_eq e)
    have := t.isLt
    rw [BitVec.toNat_sub]; simp; omega

end Sys2Proof.Machine
end

