-- ==== Sys2Proof/Laws/PerInstr.lean ====
section
/-! SUPPORT. For each instruction form: the encoder's word lies in the row of the opcode map (R95) that the form stands
for, by that row's mask and match. -/

namespace Sys2Proof.Laws.RowMatch

/-- The position of a form's row in the opcode map, from 0 (R95). -/
def rowOf : Instr → Nat
  | .cls => 0
  | .ret => 1
  | .jp _ => 2
  | .call _ => 3
  | .seImm _ _ => 4
  | .sneImm _ _ => 5
  | .seReg _ _ => 6
  | .ldImm _ _ => 7
  | .addImm _ _ => 8
  | .ldReg _ _ => 9
  | .orReg _ _ => 10
  | .andReg _ _ => 11
  | .xorReg _ _ => 12
  | .addReg _ _ => 13
  | .subReg _ _ => 14
  | .shr _ _ => 15
  | .subnReg _ _ => 16
  | .shl _ _ => 17
  | .sneReg _ _ => 18
  | .ldI _ => 19
  | .jpV0 _ => 20
  | .rnd _ _ => 21
  | .drw _ _ _ => 22
  | .skp _ => 23
  | .sknp _ => 24
  | .ldVxDT _ => 25
  | .ldVxK _ => 26
  | .ldDTVx _ => 27
  | .ldSTVx _ => 28
  | .addI _ => 29
  | .ldF _ => 30
  | .ldB _ => 31
  | .storeRegs _ => 32
  | .loadRegs _ => 33

/-- The word of `i` belongs to the row of its form. -/
def Statement (i : Instr) : Prop := ∃ r, opcodeRows[rowOf i]? = some r ∧ encode i &&& r.mask = r.bits

theorem formatNNN_and (c : BitVec 4) (nnn : Imm12) : formatNNN c nnn &&& 0xF000#16 = formatNNN c 0 := by
  apply BitVec.eq_of_getLsbD_eq
  intro i hi
  simp only [formatNNN, BitVec.getLsbD_and, BitVec.getLsbD_append]
  interval_cases i <;> simp

theorem formatXNN_and_category (c : BitVec 4) (x : RegIdx) (nn : Byte) :
    formatXNN c x nn &&& 0xF000#16 = formatXNN c 0 0 := by
  apply BitVec.eq_of_getLsbD_eq
  intro i hi
  simp only [formatXNN, BitVec.getLsbD_and, BitVec.getLsbD_append]
  interval_cases i <;> simp [nibble]

theorem formatXNN_and_byte (c : BitVec 4) (x : RegIdx) (nn : Byte) :
    formatXNN c x nn &&& 0xF0FF#16 = formatXNN c 0 nn := by
  apply BitVec.eq_of_getLsbD_eq
  intro i hi
  simp only [formatXNN, BitVec.getLsbD_and, BitVec.getLsbD_append]
  interval_cases i <;> simp [nibble]

theorem formatXYN_and_category (c : BitVec 4) (x y : RegIdx) (n : BitVec 4) :
    formatXYN c x y n &&& 0xF000#16 = formatXYN c 0 0 0 := by
  apply BitVec.eq_of_getLsbD_eq
  intro i hi
  simp only [formatXYN, BitVec.getLsbD_and, BitVec.getLsbD_append]
  interval_cases i <;> simp [nibble]

theorem formatXYN_and_nibble (c : BitVec 4) (x y : RegIdx) (n : BitVec 4) :
    formatXYN c x y n &&& 0xF00F#16 = formatXYN c 0 0 n := by
  apply BitVec.eq_of_getLsbD_eq
  intro i hi
  simp only [formatXYN, BitVec.getLsbD_and, BitVec.getLsbD_append]
  interval_cases i <;> simp [nibble]

theorem cls : Statement .cls := ⟨_, rfl, by decide⟩
theorem ret : Statement .ret := ⟨_, rfl, by decide⟩
theorem jp (nnn : Imm12) : Statement (.jp nnn) := ⟨_, rfl, (formatNNN_and _ _).trans (by decide)⟩
theorem call (nnn : Imm12) : Statement (.call nnn) := ⟨_, rfl, (formatNNN_and _ _).trans (by decide)⟩
theorem seImm (x : RegIdx) (nn : Byte) : Statement (.seImm x nn) := ⟨_, rfl, (formatXNN_and_category _ _ _).trans (by decide)⟩
theorem sneImm (x : RegIdx) (nn : Byte) : Statement (.sneImm x nn) := ⟨_, rfl, (formatXNN_and_category _ _ _).trans (by decide)⟩
theorem seReg (x : RegIdx) (y : RegIdx) : Statement (.seReg x y) := ⟨_, rfl, (formatXYN_and_nibble _ _ _ _).trans (by decide)⟩
theorem ldImm (x : RegIdx) (nn : Byte) : Statement (.ldImm x nn) := ⟨_, rfl, (formatXNN_and_category _ _ _).trans (by decide)⟩
theorem addImm (x : RegIdx) (nn : Byte) : Statement (.addImm x nn) := ⟨_, rfl, (formatXNN_and_category _ _ _).trans (by decide)⟩
theorem ldReg (x : RegIdx) (y : RegIdx) : Statement (.ldReg x y) := ⟨_, rfl, (formatXYN_and_nibble _ _ _ _).trans (by decide)⟩
theorem orReg (x : RegIdx) (y : RegIdx) : Statement (.orReg x y) := ⟨_, rfl, (formatXYN_and_nibble _ _ _ _).trans (by decide)⟩
theorem andReg (x : RegIdx) (y : RegIdx) : Statement (.andReg x y) := ⟨_, rfl, (formatXYN_and_nibble _ _ _ _).trans (by decide)⟩
theorem xorReg (x : RegIdx) (y : RegIdx) : Statement (.xorReg x y) := ⟨_, rfl, (formatXYN_and_nibble _ _ _ _).trans (by decide)⟩
theorem addReg (x : RegIdx) (y : RegIdx) : Statement (.addReg x y) := ⟨_, rfl, (formatXYN_and_nibble _ _ _ _).trans (by decide)⟩
theorem subReg (x : RegIdx) (y : RegIdx) : Statement (.subReg x y) := ⟨_, rfl, (formatXYN_and_nibble _ _ _ _).trans (by decide)⟩
theorem shr (x : RegIdx) (y : RegIdx) : Statement (.shr x y) := ⟨_, rfl, (formatXYN_and_nibble _ _ _ _).trans (by decide)⟩
theorem subnReg (x : RegIdx) (y : RegIdx) : Statement (.subnReg x y) := ⟨_, rfl, (formatXYN_and_nibble _ _ _ _).trans (by decide)⟩
theorem shl (x : RegIdx) (y : RegIdx) : Statement (.shl x y) := ⟨_, rfl, (formatXYN_and_nibble _ _ _ _).trans (by decide)⟩
theorem sneReg (x : RegIdx) (y : RegIdx) : Statement (.sneReg x y) := ⟨_, rfl, (formatXYN_and_nibble _ _ _ _).trans (by decide)⟩
theorem ldI (nnn : Imm12) : Statement (.ldI nnn) := ⟨_, rfl, (formatNNN_and _ _).trans (by decide)⟩
theorem jpV0 (nnn : Imm12) : Statement (.jpV0 nnn) := ⟨_, rfl, (formatNNN_and _ _).trans (by decide)⟩
theorem rnd (x : RegIdx) (nn : Byte) : Statement (.rnd x nn) := ⟨_, rfl, (formatXNN_and_category _ _ _).trans (by decide)⟩
theorem drw (x : RegIdx) (y : RegIdx) (n : Fin 16) : Statement (.drw x y n) := ⟨_, rfl, (formatXYN_and_category _ _ _ _).trans (by decide)⟩
theorem skp (x : RegIdx) : Statement (.skp x) := ⟨_, rfl, (formatXNN_and_byte _ _ _).trans (by decide)⟩
theorem sknp (x : RegIdx) : Statement (.sknp x) := ⟨_, rfl, (formatXNN_and_byte _ _ _).trans (by decide)⟩
theorem ldVxDT (x : RegIdx) : Statement (.ldVxDT x) := ⟨_, rfl, (formatXNN_and_byte _ _ _).trans (by decide)⟩
theorem ldVxK (x : RegIdx) : Statement (.ldVxK x) := ⟨_, rfl, (formatXNN_and_byte _ _ _).trans (by decide)⟩
theorem ldDTVx (x : RegIdx) : Statement (.ldDTVx x) := ⟨_, rfl, (formatXNN_and_byte _ _ _).trans (by decide)⟩
theorem ldSTVx (x : RegIdx) : Statement (.ldSTVx x) := ⟨_, rfl, (formatXNN_and_byte _ _ _).trans (by decide)⟩
theorem addI (x : RegIdx) : Statement (.addI x) := ⟨_, rfl, (formatXNN_and_byte _ _ _).trans (by decide)⟩
theorem ldF (x : RegIdx) : Statement (.ldF x) := ⟨_, rfl, (formatXNN_and_byte _ _ _).trans (by decide)⟩
theorem ldB (x : RegIdx) : Statement (.ldB x) := ⟨_, rfl, (formatXNN_and_byte _ _ _).trans (by decide)⟩
theorem storeRegs (x : RegIdx) : Statement (.storeRegs x) := ⟨_, rfl, (formatXNN_and_byte _ _ _).trans (by decide)⟩
theorem loadRegs (x : RegIdx) : Statement (.loadRegs x) := ⟨_, rfl, (formatXNN_and_byte _ _ _).trans (by decide)⟩

end Sys2Proof.Laws.RowMatch
end

