-- ==== Sys2Proof/Laws/Step.lean ====
section
/-! SUPPORT. One lemma for each way a step can go: which event comes, and what the step cycle does with it (R90, R244). -/

namespace Sys2Proof.Machine

/-- A queued event is the next event. -/
theorem step_of_queued {s : State} {e : Event} {rest : List Event} (h : s.io.events = e :: rest) :
    step s = ({ s with io := { s.io with events := rest } } : State).runEvent e := by
  simp [step, State.nextEvent, h]

/-- With no event queued the next event is the free value. -/
theorem step_of_empty {s : State} (h : s.io.events = []) :
    step s = ({ s with io := { s.io with drawn := s.io.drawn + 1 } } : State).runEvent (Config.freeEvent s.io.drawn) := by
  simp [step, State.nextEvent, h]

/-- Every step is one event on a state that differs from the given one in the environment's queue only. -/
theorem step_eq_runEvent (s : State) :
    ∃ (e : Event) (io : Io), io.keys = s.io.keys ∧ io.rnd = s.io.rnd ∧ io.redraw = s.io.redraw ∧
      io.soundActive = s.io.soundActive ∧ step s = ({ s with io := io } : State).runEvent e := by
  cases h : s.io.events with
  | nil => exact ⟨_, { s.io with drawn := s.io.drawn + 1 }, rfl, rfl, rfl, rfl, step_of_empty h⟩
  | cons e rest => exact ⟨e, { s.io with events := rest }, rfl, rfl, rfl, rfl, step_of_queued h⟩

/-- The state in which a `step(keys, rnd)` event, taken off the queue, does its work: the arguments at the ports, `redraw`
cleared, the queue without the event (R90). -/
def State.atStep (s : State) (keys : Word) (rnd : Byte) (rest : List Event) : State :=
  { s with io := { s.io with keys := keys, rnd := rnd, redraw := false, events := rest } }

section
variable (s : State) (keys : Word) (rnd : Byte) (rest : List Event)
@[simp] theorem State.atStep_V : (s.atStep keys rnd rest).V = s.V := rfl
@[simp] theorem State.atStep_I : (s.atStep keys rnd rest).I = s.I := rfl
@[simp] theorem State.atStep_pc : (s.atStep keys rnd rest).pc = s.pc := rfl
@[simp] theorem State.atStep_depth : (s.atStep keys rnd rest).depth = s.depth := rfl
@[simp] theorem State.atStep_stack : (s.atStep keys rnd rest).stack = s.stack := rfl
@[simp] theorem State.atStep_DT : (s.atStep keys rnd rest).DT = s.DT := rfl
@[simp] theorem State.atStep_ST : (s.atStep keys rnd rest).ST = s.ST := rfl
@[simp] theorem State.atStep_FB : (s.atStep keys rnd rest).FB = s.FB := rfl
@[simp] theorem State.atStep_mem : (s.atStep keys rnd rest).mem = s.mem := rfl
@[simp] theorem State.atStep_status : (s.atStep keys rnd rest).status = s.status := rfl
@[simp] theorem State.atStep_prevKeys : (s.atStep keys rnd rest).prevKeys = s.prevKeys := rfl
@[simp] theorem State.atStep_fault : (s.atStep keys rnd rest).fault = s.fault := rfl
@[simp] theorem State.atStep_loaded : (s.atStep keys rnd rest).loaded = s.loaded := rfl
@[simp] theorem State.atStep_io : (s.atStep keys rnd rest).io =
    { s.io with keys := keys, rnd := rnd, redraw := false, events := rest } := rfl
end

/-- A queued `step` event of a machine that exists is one cycle on that state (R90). -/
theorem step_of_step_event {s : State} {keys : Word} {rnd : Byte} {rest : List Event} (hl : s.loaded = true)
    (he : s.io.events = .step keys rnd :: rest) : step s = reported (s.atStep keys rnd rest).runCycle := by
  rw [step_of_queued he]
  simp [State.runEvent, hl, State.runStep, State.latch, State.atStep]

/-! The three tests at the top of a step (R90, R244) -/

theorem State.runCycle_of_fault {s : State} {f : FaultRecord} (h : s.fault = some f) : s.runCycle = .next s := by
  simp [State.runCycle, h]

theorem State.runCycle_of_waiting {s : State} {t : RegIdx} (hf : s.fault = none) (h : s.status = .awaitingKey t) :
    s.runCycle = .next (s.poll t) := by
  simp [State.runCycle, hf, h]

theorem State.runCycle_of_running {s : State} (hf : s.fault = none) (h : s.status = .running) :
    s.runCycle = s.runInstruction := by
  simp [State.runCycle, hf, h]

/-! Fetch and decode (R91, R231, R234) -/

theorem State.runInstruction_of_ok {s : State} {i : Instr} {tail : List Byte} (hpc : s.pc.toNat ≤ 0xFFE)
    (h : decode s.fetchBytes = .ok (i, tail)) : s.runInstruction = exec i s := by
  simp [State.runInstruction, State.canFetch, hpc, h]

theorem State.runInstruction_of_illegal {s : State} {r : Reject} (hpc : s.pc.toNat ≤ 0xFFE)
    (h : decode s.fetchBytes = .error r) :
    s.runInstruction = .next (s.raise .decodeError s.fetchWord s.fetchWord.toNat) := by
  simp [State.runInstruction, State.canFetch, hpc, h]

theorem State.runInstruction_of_outside {s : State} (hpc : 0xFFE < s.pc.toNat) :
    s.runInstruction = .next (s.raise .fetchOutOfBounds 0 s.pc.toNat) := by
  simp [State.runInstruction, State.canFetch, Nat.not_le.mpr hpc]

/-- Decoding the two bytes at `pc` is decoding the fetched word. -/
theorem State.decode_fetchBytes (s : State) :
    decode s.fetchBytes =
      match decodeWord s.fetchWord with
      | .ok i => .ok (i, [])
      | .error r => .error r := rfl

/-! Every instruction goes on (R239: a fault is a next state) -/

theorem exec_next (i : Instr) (s : State) : ∃ t, exec i s = .next t := by
  cases i <;> try exact ⟨_, rfl⟩
  case ret =>
    simp only [exec, execRet]
    split <;> exact ⟨_, rfl⟩
  case call =>
    simp only [exec, execCall]
    split <;> exact ⟨_, rfl⟩
  case drw =>
    simp only [exec, execDrw, State.withData]
    split
    · exact ⟨_, rfl⟩
    · split <;> exact ⟨_, rfl⟩
  all_goals
    simp only [exec, execSkp, execSknp, execLdB, execStoreRegs, execLoadRegs, State.withData, State.withKey]
    split <;> exact ⟨_, rfl⟩

end Sys2Proof.Machine
end

