-- ==== Sys2Proof/Tests/Slice0.lean ====
section
/-! SUPPORT. The model's own tests: decoding of words written out from the spec, ill-formed words, the vectors of
95_test_vectors.md (each test names its vector), and for every obligation with hypotheses a witness that meets them. -/

namespace Sys2Proof.Tests

open Sys2Proof.Machine Sys2Proof.Certificates

/-! ## Helpers -/

/-- The outcome is a next state of which `p` holds. -/
def after (o : Host.Outcome State Fault Refusal) (p : State → Bool) : Bool :=
  match o with
  | .next t => p t
  | .fault _ => false
  | .refused _ => false

/-- The reset state with some registers set. -/
def withRegs (rs : List (RegIdx × Byte)) : State := rs.foldl (fun s r => s.setReg r.1 r.2) State.reset

/-- A state with bytes stored from `a` on. -/
def withBytes (s : State) (a : Nat) (vs : List Byte) : State := s.setMem (s.mem.writeBytes a vs)

/-- A state with `k` stack entries in use. -/
def withDepth (s : State) (k : Fin 17) : State := { s with depth := k }

/-- A state with one event in the queue. -/
def withEvent (s : State) (e : Event) : State := { s with io := { s.io with events := [e] } }

/-- One step with the given arguments on the word `w`, placed at `pc`. -/
def runWord (w : Word) (s : State) (keys : Word := 0) (rnd : Byte := 0) : Host.Outcome State Fault Refusal :=
  step (withEvent (s.placeWord w) (.step keys rnd))

/-- One `step` event on what stands in memory. -/
def runStepEvent (s : State) (keys : Word := 0) (rnd : Byte := 0) : Host.Outcome State Fault Refusal :=
  step (withEvent s (.step keys rnd))

/-- The framebuffer with exactly these pixels on. -/
def litPixels (ps : List (Nat × Nat)) : Framebuffer :=
  ps.foldl (fun fb p => fb.xorPixel p.1 p.2 true) 0

/-- A fault record with `pc0 = 0x0200`. -/
def faultAt200 (c : FaultCause) (op : Word) (info : Nat) : Option FaultRecord :=
  some { cause := c, pc0 := 0x0200, op := op, info := info }

/-! ## Decoding: a word written out bit by bit from R93 and R95 for every row -/

/-- 00E0. -/
theorem test_decode_cls : decodeWord 0b0000000011100000#16 = .ok (.cls) := by decide
/-- 00EE. -/
theorem test_decode_ret : decodeWord 0b0000000011101110#16 = .ok (.ret) := by decide
/-- 1ABC. -/
theorem test_decode_jp : decodeWord 0b0001101010111100#16 = .ok (.jp 0xABC#12) := by decide
/-- 2ABC. -/
theorem test_decode_call : decodeWord 0b0010101010111100#16 = .ok (.call 0xABC#12) := by decide
/-- 332A. -/
theorem test_decode_seImm : decodeWord 0b0011001100101010#16 = .ok (.seImm 3 0x2A#8) := by decide
/-- 432B. -/
theorem test_decode_sneImm : decodeWord 0b0100001100101011#16 = .ok (.sneImm 3 0x2B#8) := by decide
/-- 5120. -/
theorem test_decode_seReg : decodeWord 0b0101000100100000#16 = .ok (.seReg 1 2) := by decide
/-- 6A7F. -/
theorem test_decode_ldImm : decodeWord 0b0110101001111111#16 = .ok (.ldImm 0xA 0x7F#8) := by decide
/-- 7102. -/
theorem test_decode_addImm : decodeWord 0b0111000100000010#16 = .ok (.addImm 1 0x02#8) := by decide
/-- 8120. -/
theorem test_decode_ldReg : decodeWord 0b1000000100100000#16 = .ok (.ldReg 1 2) := by decide
/-- 8121. -/
theorem test_decode_orReg : decodeWord 0b1000000100100001#16 = .ok (.orReg 1 2) := by decide
/-- 8122. -/
theorem test_decode_andReg : decodeWord 0b1000000100100010#16 = .ok (.andReg 1 2) := by decide
/-- 8123. -/
theorem test_decode_xorReg : decodeWord 0b1000000100100011#16 = .ok (.xorReg 1 2) := by decide
/-- 8AB4. -/
theorem test_decode_addReg : decodeWord 0b1000101010110100#16 = .ok (.addReg 0xA 0xB) := by decide
/-- 8125. -/
theorem test_decode_subReg : decodeWord 0b1000000100100101#16 = .ok (.subReg 1 2) := by decide
/-- 81A6. -/
theorem test_decode_shr : decodeWord 0b1000000110100110#16 = .ok (.shr 1 0xA) := by decide
/-- 8127. -/
theorem test_decode_subnReg : decodeWord 0b1000000100100111#16 = .ok (.subnReg 1 2) := by decide
/-- 812E. -/
theorem test_decode_shl : decodeWord 0b1000000100101110#16 = .ok (.shl 1 2) := by decide
/-- 9120. -/
theorem test_decode_sneReg : decodeWord 0b1001000100100000#16 = .ok (.sneReg 1 2) := by decide
/-- A2F0. -/
theorem test_decode_ldI : decodeWord 0b1010001011110000#16 = .ok (.ldI 0x2F0#12) := by decide
/-- B204. -/
theorem test_decode_jpV0 : decodeWord 0b1011001000000100#16 = .ok (.jpV0 0x204#12) := by decide
/-- C30F. -/
theorem test_decode_rnd : decodeWord 0b1100001100001111#16 = .ok (.rnd 3 0x0F#8) := by decide
/-- D125. -/
theorem test_decode_drw : decodeWord 0b1101000100100101#16 = .ok (.drw 1 2 5) := by decide
/-- E59E. -/
theorem test_decode_skp : decodeWord 0b1110010110011110#16 = .ok (.skp 5) := by decide
/-- E5A1. -/
theorem test_decode_sknp : decodeWord 0b1110010110100001#16 = .ok (.sknp 5) := by decide
/-- F307. -/
theorem test_decode_ldVxDT : decodeWord 0b1111001100000111#16 = .ok (.ldVxDT 3) := by decide
/-- F70A. -/
theorem test_decode_ldVxK : decodeWord 0b1111011100001010#16 = .ok (.ldVxK 7) := by decide
/-- F315. -/
theorem test_decode_ldDTVx : decodeWord 0b1111001100010101#16 = .ok (.ldDTVx 3) := by decide
/-- F218. -/
theorem test_decode_ldSTVx : decodeWord 0b1111001000011000#16 = .ok (.ldSTVx 2) := by decide
/-- F21E. -/
theorem test_decode_addI : decodeWord 0b1111001000011110#16 = .ok (.addI 2) := by decide
/-- F429. -/
theorem test_decode_ldF : decodeWord 0b1111010000101001#16 = .ok (.ldF 4) := by decide
/-- F033. -/
theorem test_decode_ldB : decodeWord 0b1111000000110011#16 = .ok (.ldB 0) := by decide
/-- F155. -/
theorem test_decode_storeRegs : decodeWord 0b1111000101010101#16 = .ok (.storeRegs 1) := by decide
/-- F365. -/
theorem test_decode_loadRegs : decodeWord 0b1111001101100101#16 = .ok (.loadRegs 3) := by decide

/-- The first byte of an instruction is the high half of its word (R62). -/
theorem test_decode_high_byte_first : decode [0x6A, 0x7F, 0x99] = .ok (.ldImm 0xA 0x7F#8, [0x99]) := by decide

/-- The table's numbering: one 16-bit word. -/
theorem test_decode_table_word : decodeTableWord 16 0xD125 = some (.drw 1 2 5) ∧ decodeTableWord 16 0xF175 = none := by decide

/-! ## Ill-formed words of each kind (section 2.1 of 95_test_vectors.md) -/

theorem test_illformed_category0 :
    [0x0000#16, 0x00E1#16, 0x00EF#16, 0x01E0#16, 0x0123#16].all
      (fun w => !wordWellFormed w && decide (decodeWord w = .error (.category0 w))) = true := by decide

theorem test_illformed_skip_nibble :
    [0x5121#16, 0x9ABF#16].all (fun w => !wordWellFormed w && decide (decodeWord w = .error (.skipNibble w))) = true := by
  decide

theorem test_illformed_alu_nibble :
    [0x8128#16, 0x812D#16, 0x812F#16].all
      (fun w => !wordWellFormed w && decide (decodeWord w = .error (.aluNibble w))) = true := by decide

theorem test_illformed_key_byte :
    [0xE19F#16, 0xE1A0#16, 0xE000#16].all
      (fun w => !wordWellFormed w && decide (decodeWord w = .error (.keyByte w))) = true := by decide

theorem test_illformed_misc_byte :
    [0xF100#16, 0xF10B#16, 0xF175#16, 0xF1FF#16].all
      (fun w => !wordWellFormed w && decide (decodeWord w = .error (.miscByte w))) = true := by decide

/-- The nearest legal words are well formed. -/
theorem test_wellformed_neighbours :
    [0x00E0#16, 0x00EE#16, 0x1123#16, 0x5120#16, 0x9AB0#16, 0x8127#16, 0x812E#16, 0xE19E#16, 0xE1A1#16, 0xF107#16,
      0xF10A#16, 0xF165#16].all wordWellFormed = true := by decide

/-- Fewer than two bytes are no instruction (R92). -/
theorem test_illformed_one_byte : decode [0x60] = .error .tooShort := by decide

/-! ## Display (section 2.2) -/

/-- Pixel (r, c) is element r * 64 + c. -/
theorem test_pixel_layout : (litPixels [(1, 2)]).pixel 1 2 = true ∧ litPixels [(1, 2)] = (1#2048 <<< 66) := by decide +kernel

/-- D-1. -/
theorem test_cls : after (runWord 0x00E0 (State.reset.display (litPixels [(5, 7), (31, 63)])))
    (fun t => t.FB == 0 && t.io.redraw && t.pc == 0x0202) = true := by decide +kernel

/-- S6: clipping at the right edge. -/
theorem test_drw_clips : after (runWord 0xD011 ((withBytes (withRegs [(0, 60)]) 0x300 [0xFF]).setI 0x300))
    (fun t => t.FB == litPixels [(0, 60), (0, 61), (0, 62), (0, 63)] && t.reg 15 == 0 && t.io.redraw) = true := by decide +kernel

/-- D-8: an on pixel goes off, which is a collision. -/
theorem test_drw_collides :
    after (runWord 0xD011 (((withBytes State.reset 0x300 [0xC0]).setI 0x300).display (litPixels [(0, 0)])))
      (fun t => t.FB == litPixels [(0, 1)] && t.reg 15 == 1) = true := by decide +kernel

/-! ## Control transfer (section 2.3) -/

/-- C-8. -/
theorem test_ret_underflow : after (runWord 0x00EE State.reset)
    (fun t => t.fault == faultAt200 .stackUnderflow 0x00EE 0 && t.pc == 0x0200) = true := by decide

/-- C-7. -/
theorem test_ret : after (runWord 0x00EE (withDepth { State.reset with stack := State.reset.stack.set 0 0x0456 } 1))
    (fun t => t.pc == 0x0456 && t.sp == -1 && t.stack[0] == 0x0456) = true := by decide

/-- C-3: an odd target is legal. -/
theorem test_jp : after (runWord 0x1201 State.reset) (fun t => t.pc == 0x0201 && t.fault == none) = true := by decide

/-- C-5: the last free entry. -/
theorem test_call : after (runWord 0x2ABC (withDepth State.reset 15))
    (fun t => t.pc == 0x0ABC && t.sp == 15 && t.stack[15] == 0x0202) = true := by decide

/-- C-6. -/
theorem test_call_overflow : after (runWord 0x2ABC (withDepth State.reset 16))
    (fun t => t.fault == faultAt200 .stackOverflow 0x2ABC 0 && t.pc == 0x0200 && t.sp == 15) = true := by decide

/-- C-9 and C-10. -/
theorem test_seImm : after (runWord 0x332A (withRegs [(3, 0x2A)])) (fun t => t.pc == 0x0204) = true ∧
    after (runWord 0x332B (withRegs [(3, 0x2A)])) (fun t => t.pc == 0x0202) = true := by decide

/-- C-11 and C-12. -/
theorem test_sneImm : after (runWord 0x432A (withRegs [(3, 0x2A)])) (fun t => t.pc == 0x0202) = true ∧
    after (runWord 0x432B (withRegs [(3, 0x2A)])) (fun t => t.pc == 0x0204) = true := by decide

/-- C-13 and C-14. -/
theorem test_seReg : after (runWord 0x5120 (withRegs [(1, 7), (2, 7)])) (fun t => t.pc == 0x0204) = true ∧
    after (runWord 0x5120 (withRegs [(1, 7), (2, 8)])) (fun t => t.pc == 0x0202) = true := by decide

/-- C-16 and C-17. -/
theorem test_sneReg : after (runWord 0x9120 (withRegs [(1, 7), (2, 8)])) (fun t => t.pc == 0x0204) = true ∧
    after (runWord 0x9120 (withRegs [(1, 7), (2, 7)])) (fun t => t.pc == 0x0202) = true := by decide

/-- C-19: the sum is not reduced to 12 bits. -/
theorem test_jpV0 : after (runWord 0xBFFF (withRegs [(0, 0xFF)])) (fun t => t.pc == 0x10FE && t.fault == none) = true := by
  decide

/-! ## Load, ALU, random (section 2.4): `V[1]`, `V[2]` and VF before, `V[1]` and VF after -/

/-- One word of the table: `a`, `b` and `f` are `V[1]`, `V[2]`, VF before; `a'` and `f'` are `V[1]` and VF after. -/
def alu (w : Word) (a b f a' f' : Byte) : Bool :=
  after (runWord w (withRegs [(1, a), (2, b), (15, f)]))
    (fun t => t.reg 1 == a' && t.reg 2 == b && t.reg 15 == f' && t.pc == 0x0202)

/-- A-1. -/
theorem test_ldImm : alu 0x61FF 0x00 0x55 0 0xFF 0 = true := by decide

/-- A-2. -/
theorem test_addImm : alu 0x7102 0xFF 0 1 0x01 1 = true := by decide

/-- A-5. -/
theorem test_ldReg : alu 0x8120 0 0x33 0 0x33 0 = true := by decide

/-- A-7. -/
theorem test_orReg : alu 0x8121 0xF0 0x0F 1 0xFF 1 = true := by decide

/-- A-8. -/
theorem test_andReg : alu 0x8122 0xF3 0x3C 0 0x30 0 = true := by decide

/-- A-9. -/
theorem test_xorReg : alu 0x8123 0xFF 0x0F 0 0xF0 0 = true := by decide

/-- A-11 and A-12. -/
theorem test_addReg : alu 0x8124 0xFF 0x01 0 0 1 = true ∧ alu 0x8124 1 1 1 2 0 = true := by decide

/-- A-18. -/
theorem test_subReg : alu 0x8125 3 5 0 0xFE 0 = true := by decide

/-- A-19. -/
theorem test_subReg_equal : alu 0x8125 0x10 0x10 0 0 0 = true := by decide

/-- A-28. -/
theorem test_shr : alu 0x8126 0x05 0xF0 0 0x02 1 = true := by decide

/-- A-29. -/
theorem test_subnReg : alu 0x8127 3 5 0 2 1 = true := by decide

/-- A-31. -/
theorem test_subnReg_equal : alu 0x8127 0x10 0x10 0 0 0 = true := by decide

/-- A-36. -/
theorem test_shl : alu 0x810E 0xA0 0 0 0x40 1 = true := by decide

/-- A-35. -/
theorem test_shl_bit5 : alu 0x810E 0x20 0 0 0x40 0 = true := by decide

/-- A-41: with `x = 15` the sum is lost and VF is the carry. -/
theorem test_flag_last : after (runWord 0x8F14 (withRegs [(15, 0x10), (1, 0x01)])) (fun t => t.reg 15 == 0) = true := by decide

/-- A-45: the same of a shift. -/
theorem test_flag_last_shift : after (runWord 0x8F06 (withRegs [(15, 0x03)])) (fun t => t.reg 15 == 1) = true := by decide

/-- A-60. -/
theorem test_rnd : after (runWord 0xC30F State.reset 0 0xB7) (fun t => t.reg 3 == 0x07) = true := by decide

/-! ## Index and memory (section 2.5) -/

/-- M-2. -/
theorem test_ldI : after (runWord 0xAFFF State.reset) (fun t => t.I == 0x0FFF) = true := by decide

/-- M-4 and M-5. -/
theorem test_addI : after (runWord 0xF21E ((withRegs [(2, 1)]).setI 0x0FFF)) (fun t => t.I == 0x1000 && t.reg 15 == 0) = true ∧
    after (runWord 0xF21E ((withRegs [(2, 1)]).setI 0xFFFF)) (fun t => t.I == 0x0000) = true := by decide

/-- M-11: all 8 bits of the register. -/
theorem test_ldF : after (runWord 0xF429 (withRegs [(4, 0xFF)])) (fun t => t.I == 0x04FB) = true := by decide

/-- M-17: the last three bytes of memory. -/
theorem test_ldB : after (runWord 0xF033 ((withRegs [(0, 0x9D)]).setI 0x0FFD))
    (fun t => t.mem.read 0xFFD == 1 && t.mem.read 0xFFE == 5 && t.mem.read 0xFFF == 7 && t.I == 0x0FFD) = true := by decide

/-- M-18. -/
theorem test_ldB_outside : after (runWord 0xF033 ((withRegs [(0, 0x9D)]).setI 0x0FFE))
    (fun t => t.fault == faultAt200 .dataOutOfBounds 0xF033 0x1000 && t.mem.read 0xFFE == 0) = true := by decide

/-- M-19. -/
theorem test_storeRegs : after (runWord 0xF155 ((withRegs [(0, 0x11), (1, 0x22), (2, 0x33)]).setI 0x0400))
    (fun t => t.mem.read 0x400 == 0x11 && t.mem.read 0x401 == 0x22 && t.mem.read 0x402 == 0 && t.I == 0x0400) = true := by
  decide

/-- M-22. -/
theorem test_storeRegs_outside : after (runWord 0xFF55 (State.reset.setI 0x0FF1))
    (fun t => t.fault == faultAt200 .dataOutOfBounds 0xFF55 0x1000) = true := by decide

/-- M-24. -/
theorem test_loadRegs : after (runWord 0xF265 ((withBytes (withRegs [(3, 0x99)]) 0x300 [1, 5, 7]).setI 0x0300))
    (fun t => t.reg 0 == 1 && t.reg 1 == 5 && t.reg 2 == 7 && t.reg 3 == 0x99 && t.I == 0x0300) = true := by decide

/-- M-25: the font is in memory at reset (with the default of `FONT`, log entry 10). -/
theorem test_loadRegs_font : after (runWord 0xF465 State.reset)
    (fun t => t.reg 0 == 0xF0 && t.reg 1 == 0x90 && t.reg 4 == 0xF0 && t.reg 5 == 0) = true := by decide

/-! ## Keypad (section 2.6) -/

/-- K-3 and K-6. -/
theorem test_skp : after (runWord 0xE59E (withRegs [(5, 3)]) 0xFFF7) (fun t => t.pc == 0x0202) = true ∧
    after (runWord 0xE59E (withRegs [(5, 15)]) 0x8000) (fun t => t.pc == 0x0204) = true := by decide

/-- K-7. -/
theorem test_skp_outside : after (runWord 0xE59E (withRegs [(5, 0x10)]) 0xFFFF)
    (fun t => t.fault == faultAt200 .keyIndexOutOfRange 0xE59E 0x10) = true := by decide

/-- K-4 and K-5. -/
theorem test_sknp : after (runWord 0xE5A1 (withRegs [(5, 3)]) 0x0008) (fun t => t.pc == 0x0202) = true ∧
    after (runWord 0xE5A1 (withRegs [(5, 3)]) 0x0000) (fun t => t.pc == 0x0204) = true := by decide

/-- K-8. -/
theorem test_sknp_outside : after (runWord 0xE5A1 (withRegs [(5, 0xFF)]))
    (fun t => t.fault == faultAt200 .keyIndexOutOfRange 0xE5A1 0xFF) = true := by decide

/-- K-12. -/
theorem test_ldVxK : after (runWord 0xF70A State.reset 0x0020)
    (fun t => t.status == .awaitingKey 7 && t.prevKeys == 0x0020 && t.pc == 0x0200 && t.reg 7 == 0) = true := by decide

/-- A machine that waits for register 7 with this snapshot before. -/
def waiting (prev : Word) : State := { State.reset with status := .awaitingKey 7, prevKeys := prev }

/-- K-13 and K-16: a held key and a release end no wait. -/
theorem test_poll_waits :
    after (runStepEvent (waiting 0x0020) 0x0020) (fun t => t.status == .awaitingKey 7 && t.prevKeys == 0x0020) = true ∧
    after (runStepEvent (waiting 0x0020) 0x0000) (fun t => t.status == .awaitingKey 7 && t.prevKeys == 0) = true := by decide

/-- K-15: the lowest index of two. -/
theorem test_poll_ends : after (runStepEvent (waiting 0x0000) 0x0090)
    (fun t => t.status == .running && t.reg 7 == 4 && t.pc == 0x0202 && t.prevKeys == 0x0090) = true := by decide

/-! ## Timers (section 2.7) -/

/-- T-1. -/
theorem test_ldVxDT : after (runWord 0xF307 (State.reset.setDT 0x3C)) (fun t => t.reg 3 == 0x3C && t.DT == 0x3C) = true := by
  decide

/-- T-2. -/
theorem test_ldDTVx : after (runWord 0xF315 (withRegs [(3, 0x3C)])) (fun t => t.DT == 0x3C) = true := by decide

/-- T-3 and T-4: the output reflects the value written by the step. -/
theorem test_ldSTVx : after (runWord 0xF218 (withRegs [(2, 5)])) (fun t => t.ST == 5 && t.io.soundActive) = true ∧
    after (runWord 0xF218 (State.reset.setST 9)) (fun t => t.ST == 0 && !t.io.soundActive) = true := by decide

/-- T-6 and T-7: a timer stops at 0. -/
theorem test_tick : after (step (withEvent ((State.reset.setDT 1).setST 1) .timerTick)) (fun t => t.DT == 0 && t.ST == 0) = true ∧
    after (step (withEvent State.reset .timerTick)) (fun t => t.DT == 0 && t.ST == 0) = true := by decide

/-- T-9: frozen while a fault is recorded. -/
theorem test_tick_frozen :
    after (step (withEvent ((State.reset.setDT 5).raise .decodeError 0 0) .timerTick)) (fun t => t.DT == 5) = true := by decide

/-! ## Faults, load (section 2.8) -/

/-- X-1. -/
theorem test_illegal_word : after (runStepEvent State.reset)
    (fun t => t.fault == faultAt200 .decodeError 0 0 && t.pc == 0x0200 && !t.io.redraw && !t.io.soundActive) = true := by decide

/-- C-22. -/
theorem test_fetch_outside : after (runStepEvent (State.reset.setPc 0x0FFF))
    (fun t => t.fault == some { cause := .fetchOutOfBounds, pc0 := 0x0FFF, op := 0, info := 0x0FFF }) = true := by decide

/-- C-21: the last word of memory can be executed. -/
theorem test_fetch_last : after (runWord 0x6001 (State.reset.setPc 0x0FFE)) (fun t => t.reg 0 == 1 && t.pc == 0x1000) = true := by
  decide

/-- X-4: a load leaves the aborted state. -/
theorem test_load : after (step (withEvent (State.reset.raise .decodeError 0 0) (.load [0x12, 0x00])))
    (fun t => t.fault == none && t.mem.read 0x200 == 0x12 && t.mem.read 0x202 == 0 && t.pc == 0x0200) = true := by decide

/-- The default of `FONT` at its ends, and the first byte after it (R68; the bytes are log entry 10). -/
theorem test_font : State.reset.mem.read 0x000 = 0xF0 ∧ State.reset.mem.read 0x04F = 0x80 ∧ State.reset.mem.read 0x050 = 0x00 := by
  decide

/-- A machine with another `FONT`: a load copies that font, and a store over it is an ordinary store (R8, R68, R69). -/
theorem test_other_font :
    after (step (withEvent { State.reset with mem := { font := Vector.replicate 80 0x3C, cells := [] } } (.load [0x12])))
      (fun t => t.mem.read 0x000 == 0x3C && t.mem.read 0x04F == 0x3C && t.mem.read 0x050 == 0 && t.mem.read 0x200 == 0x12 &&
        (t.mem.write 0x000 0x00).read 0x000 == 0 && (t.mem.write 0x000 0x00).wf) = true := by decide

/-! ## The host's words: placed after reset, each of them is the next instruction to run -/

theorem test_withFetchWord :
    after (step (State.reset.withFetchWord 16 0x6A7F)) (fun t => t.reg 10 == 0x7F && t.pc == 0x0202) = true ∧
    after (step (State.reset.withFetchWord 16 0xD125)) (fun t => t.io.redraw) = true ∧
    after (step (State.reset.withFetchWord 16 0x2ABC)) (fun t => t.pc == 0x0ABC) = true ∧
    after (step (State.reset.withFetchWord 16 0xF365)) (fun t => t.reg 4 == 0 && t.I == 0 && t.pc == 0x0202) = true := by decide

/-- It is the next instruction from an aborted machine too, with `pc` where nothing can be fetched. -/
theorem test_withFetchWord_aborted :
    after (step (State.withFetchWord ((State.reset.setPc 0x1000).raise .fetchOutOfBounds 0 0x1000) 16 0x6A7F))
      (fun t => t.reg 10 == 0x7F) = true := by decide

/-! ## Witnesses: for every obligation with hypotheses, a state and operands that meet all of them, each clause at a
boundary value of its range -/

/-- `EncodeOfDecodedWordIsTheWord`, `LegalWordsAreTheRowsOfTheOpcodeMap`: the free field `y` of `8xy6`. -/
theorem witness_legal_word : decodeWord 0x81A6#16 = .ok (.shr 1 0xA) ∧ encode (.shr 1 0xA) = 0x81A6#16 ∧
    ∃ r ∈ opcodeRows, 0x81A6#16 &&& r.mask = r.bits := by
  refine ⟨by decide, by decide, ⟨"8xy6", 0xF00F, 0x8006⟩, by decide, by decide⟩

/-- `DrwXorsTheVisibleSpriteAndReportsCollision`, first clause, D-13: no row is drawn, whatever `I` is. -/
theorem witness_drw_no_rows : SpriteInMemory (State.reset.setI 0x1000) 1 0 := .inl (by decide)

/-- D-11: the last row drawn is at 0xFFF, and clipped rows are not read. -/
theorem witness_drw_last_address : SpriteInMemory ((withRegs [(1, 30)]).setI 0x0FFE) 1 5 := .inr (by decide)

/-- Second clause, D-12: one more row needs 0x1000. -/
theorem witness_drw_outside : ¬ SpriteInMemory ((withRegs [(1, 29)]).setI 0x0FFE) 1 5 ∧
    ((withRegs [(1, 29)]).setI 0x0FFE).I.toNat + (rowsDrawn ((withRegs [(1, 29)]).setI 0x0FFE) 1 5 - 1) = 0x1000 := by
  unfold SpriteInMemory
  decide

/-- The pixel at the lower right corner collides (`n = 1`, origin (63, 31), bit 7). -/
theorem witness_drw_collision :
    (litPixels [(31, 63)]).pixel 31 63 = true ∧
    spriteOver ((withBytes (withRegs [(0, 63), (1, 31)]) 0x300 [0x80]).setI 0x300) 0 1 1 31 63 = true ∧
    spriteOver ((withBytes (withRegs [(0, 63), (1, 31)]) 0x300 [0x80]).setI 0x300) 0 1 1 31 62 = false := by
  decide +kernel

/-- `DrawingTwiceRestoresTheFramebuffer`: the first draw leaves its coordinates, also with `x = 15` when VF is the flag. -/
theorem witness_draw_twice :
    SpriteInMemory State.reset 1 5 ∧
    after (exec (.drw 0 1 5) State.reset) (fun t => t.reg 0 == State.reset.reg 0 && t.reg 1 == State.reset.reg 1) = true ∧
    after (exec (.drw 15 1 5) State.reset) (fun t => t.reg 15 == State.reset.reg 15) = true :=
  ⟨.inr (by decide), by decide +kernel, by decide +kernel⟩

/-- `RetPopsTheReturnAddress`: one entry, all 16 entries, none. -/
theorem witness_ret : (withDepth State.reset 1).sp = ((0 : Fin 16).val : Int) ∧
    (withDepth State.reset 16).sp = ((15 : Fin 16).val : Int) ∧ State.reset.sp = -1 := by decide

/-- `CallPushesTheNextAddressAndJumps`, `ReturnUndoesCall`: the empty stack, one free entry, no free entry. -/
theorem witness_call : State.reset.sp < 15 ∧ (withDepth State.reset 15).sp < 15 ∧
    ((15 : Fin 16).val : Int) = (withDepth State.reset 15).sp + 1 ∧ (withDepth State.reset 16).sp = 15 := by decide

/-- `SeRegSkipsOnEqualRegisters`, `SneRegSkipsOnUnequalRegisters`: the illegal low nibbles at both ends. -/
theorem witness_skip_nibble : (1 : Fin 16) ≠ 0 ∧ (15 : Fin 16) ≠ 0 := by decide

/-- `AddRegSetsVFToTheCarry`: sums 255 and 256, with `x` other than 15. -/
theorem witness_addReg : (1 : RegIdx) ≠ 15 ∧
    ¬ (((withRegs [(1, 0xFF)]).reg 1).toNat + ((withRegs [(1, 0xFF)]).reg 2).toNat > 255) ∧
    ((withRegs [(1, 0xFF), (2, 1)]).reg 1).toNat + ((withRegs [(1, 0xFF), (2, 1)]).reg 2).toNat > 255 := by decide

/-- `SubRegSetsVFWhenVxIsGreater`, `SubnRegSetsVFWhenVyIsGreater`: equal, and one apart. -/
theorem witness_subReg : ¬ (((withRegs [(1, 5), (2, 5)]).reg 1).toNat > ((withRegs [(1, 5), (2, 5)]).reg 2).toNat) ∧
    ((withRegs [(1, 6), (2, 5)]).reg 1).toNat > ((withRegs [(1, 6), (2, 5)]).reg 2).toNat := by decide

/-- `ShrHalvesVxAndKeepsBitZero`, `ShlDoublesVxAndKeepsBitSeven`: the shifted bit on and off. -/
theorem witness_shift : ((withRegs [(1, 1)]).reg 1).toNat % 2 = 1 ∧ ¬ ((withRegs [(1, 2)]).reg 1).toNat % 2 = 1 ∧
    ((withRegs [(1, 0x80)]).reg 1).toNat ≥ 128 ∧ ¬ ((withRegs [(1, 0x7F)]).reg 1).toNat ≥ 128 := by decide

/-- `LdBStoresTheDecimalDigits`: the highest address 0xFFF, and 0x1000. -/
theorem witness_ldB : State.reset.mem.wf = true ∧ (State.reset.setI 0x0FFD).dataAddr 2 = 0xFFF ∧
    (State.reset.setI 0x0FFE).dataAddr 2 = 0x1000 := by decide

/-- `StoreRegsWritesV0ToVx`, `LoadRegsReadsV0ToVx`: the same, for the first and the last register; a canonical memory that
lists bytes. -/
theorem witness_regs : (withBytes State.reset 0x300 [1, 0, 7]).mem.wf = true ∧
    (State.reset.setI 0x0FFF).dataAddr (0 : RegIdx).val = 0xFFF ∧ (State.reset.setI 0x1000).dataAddr (0 : RegIdx).val = 0x1000 ∧
    (State.reset.setI 0x0FF0).dataAddr (15 : RegIdx).val = 0xFFF ∧
    (State.reset.setI 0x0FF1).dataAddr (15 : RegIdx).val = 0x1000 := by decide

/-- `SkpSkipsOnAHeldKey`, `SknpSkipsOnAFreeKey`: keys 0 and 15, and 16. -/
theorem witness_key : ((withRegs [(5, 0)]).reg 5).toNat = (0 : RegIdx).val ∧
    ((withRegs [(5, 15)]).reg 5).toNat = (15 : RegIdx).val ∧ ((withRegs [(5, 16)]).reg 5).toNat > 15 := by decide

/-- The hypotheses about the event hold of every state with that one event in the queue. -/
theorem witness_step_comes : StepComes (withEvent State.reset (.step 0x8000 0xB7)) 0x8000 0xB7 [] := ⟨rfl, rfl⟩

/-- `PollEndsTheWaitOnTheLeastPressEdge`: no edge (a held key), and an edge on key 15 only. -/
theorem witness_poll :
    StepComes (withEvent (waiting 0x8000) (.step 0x8000 0)) 0x8000 0 [] ∧ (waiting 0x8000).fault = none ∧
    (waiting 0x8000).status = .awaitingKey 7 ∧ (∀ k, ¬ Edge 0x8000 0x8000 k) ∧
    Edge 0x0000 0x8000 15 ∧ (∀ j, j < 15 → ¬ Edge 0x0000 0x8000 j) ∧
    Edge 0x0000 0x8001 0 ∧ (∀ j, j < 0 → ¬ Edge 0x0000 0x8001 j) := by
  refine ⟨⟨rfl, rfl⟩, rfl, rfl, ?_⟩
  unfold Edge
  decide

/-- `TimerTickCountsBothTimersDown`. -/
theorem witness_tick : (withEvent State.reset .timerTick).loaded = true ∧
    (withEvent State.reset .timerTick).io.events = .timerTick :: [] ∧ (withEvent State.reset .timerTick).fault = none :=
  ⟨rfl, rfl, rfl⟩

/-- A machine at the last address that can be fetched from, with the word 0x6001 there. -/
def atEnd : State := (withBytes (withEvent State.reset (.step 0x8000 0xB7)) 0xFFE [0x60, 0x01]).setPc 0x0FFE

/-- `StepRunsTheDecodedInstruction`. -/
theorem witness_step_runs : StepComes atEnd 0x8000 0xB7 [] ∧ atEnd.fault = none ∧ atEnd.status = .running ∧
    atEnd.pc.toNat ≤ 0xFFE ∧
    decode [atEnd.mem.read atEnd.pc.toNat, atEnd.mem.read (atEnd.pc.toNat + 1)] = .ok (.ldImm 0 0x01#8, []) := by
  refine ⟨⟨rfl, rfl⟩, rfl, rfl, by decide, by decide⟩

/-- `IllegalWordIsADecodeError`: the zeros after reset. -/
theorem witness_illegal_word : StepComes (withEvent State.reset (.step 0 0)) 0 0 [] ∧ State.reset.fault = none ∧
    State.reset.status = .running ∧ State.reset.pc.toNat ≤ 0xFFE ∧
    (0x0000#16 = State.reset.mem.read State.reset.pc.toNat ++ State.reset.mem.read (State.reset.pc.toNat + 1)) ∧
    ∀ r ∈ opcodeRows, 0x0000#16 &&& r.mask ≠ r.bits := by
  refine ⟨⟨rfl, rfl⟩, rfl, rfl, by decide, by decide, by decide⟩

/-- `FetchAboveMemoryIsAFault`: 0xFFF, the first address without two bytes. -/
theorem witness_fetch_above : StepComes ((withEvent State.reset (.step 0 0)).setPc 0x0FFF) 0 0 [] ∧
    State.reset.fault = none ∧ State.reset.status = .running ∧ (State.reset.setPc 0x0FFF).pc.toNat > 0xFFE :=
  ⟨⟨rfl, rfl⟩, rfl, rfl, by decide⟩

/-- `AbortedMachineIsFrozen`, both clauses. -/
theorem witness_aborted :
    (State.reset.raise .decodeError 0 0).fault = faultAt200 .decodeError 0 0 ∧
    StepComes (withEvent (State.reset.raise .decodeError 0 0) (.step 0 0)) 0 0 [] ∧
    (withEvent (State.reset.raise .decodeError 0 0) .timerTick).io.events = .timerTick :: [] :=
  ⟨rfl, ⟨rfl, rfl⟩, rfl⟩

/-- `FaultsArePreciseAndOnlyTheirInstructionsRaiseThem`: an instruction that records a fault for each of the four causes
that instructions have. -/
theorem witness_faults : State.reset.fault = none ∧
    after (exec (.call 0xABC) (withDepth State.reset 16)) (fun t => t.fault == faultAt200 .stackOverflow 0x2ABC 0) = true ∧
    after (exec .ret State.reset) (fun t => t.fault == faultAt200 .stackUnderflow 0x00EE 0) = true ∧
    after (exec (.ldB 0) (State.reset.setI 0x0FFE)) (fun t => t.fault == faultAt200 .dataOutOfBounds 0xF033 0x1000) = true ∧
    after (exec (.skp 5) (withRegs [(5, 16)])) (fun t => t.fault == faultAt200 .keyIndexOutOfRange 0xE59E 16) = true := by
  decide

/-- `EachPieceOfStateHasOnlyItsWriters`: an instruction that is none of the writers, and goes on. -/
theorem witness_writers : (∃ t, exec (.addReg 1 2) State.reset = .next t) ∧ (2 : RegIdx) ∉ destinations (.addReg 1 2) ∧
    steersPc (.addReg 1 2) = false ∧ canFault (.addReg 1 2) = false ∧ Instr.addReg 1 2 ≠ .cls ∧
    (∀ x y n, Instr.addReg 1 2 ≠ .drw x y n) ∧ (∀ x, Instr.addReg 1 2 ≠ .ldB x) ∧ (∀ x, Instr.addReg 1 2 ≠ .storeRegs x) ∧
    (∀ nnn, Instr.addReg 1 2 ≠ .call nnn) ∧ Instr.addReg 1 2 ≠ .ret ∧ (∀ nnn, Instr.addReg 1 2 ≠ .ldI nnn) ∧
    (∀ x, Instr.addReg 1 2 ≠ .addI x) ∧ (∀ x, Instr.addReg 1 2 ≠ .ldF x) ∧ (∀ x, Instr.addReg 1 2 ≠ .ldDTVx x) ∧
    (∀ x, Instr.addReg 1 2 ≠ .ldSTVx x) ∧ (∀ x, Instr.addReg 1 2 ≠ .ldVxK x) := by
  refine ⟨⟨_, rfl⟩, by decide, rfl, rfl, ?_⟩
  simp

/-- `OnlyTheirReadersSeeTheStepArguments`: `Cxnn` does not read the keys, and `Ex9E` not the random byte. -/
theorem witness_readers : (∀ x nn, Instr.skp 5 ≠ .rnd x nn) ∧ (∀ x, Instr.rnd 1 0xFF ≠ .skp x) ∧
    (∀ x, Instr.rnd 1 0xFF ≠ .sknp x) ∧ (∀ x, Instr.rnd 1 0xFF ≠ .ldVxK x) := by
  simp

/-- `SoundTimerIsInvisibleToTheProgram`: two states that differ in `ST` and in the output. -/
theorem witness_sound : hideSound State.reset = hideSound (State.reset.setST 9).report ∧
    State.reset ≠ (State.reset.setST 9).report := by
  refine ⟨rfl, fun h => ?_⟩
  have := congrArg State.ST h
  revert this
  decide

/-- `EachPieceOfStateHasOnlyItsWriters`, the fault in the clause about `pc`: a form that does not steer it and faults. -/
theorem witness_writers_fault : steersPc (.ldB 0) = false ∧ canFault (.ldB 0) = true ∧
    after (exec (.ldB 0) (State.reset.setI 0x0FFE)) (fun t => t.fault.isSome && t.pc == 0x0200) = true := by decide

/-- `StoredRegistersAreFetchedAsCode`: all 16 registers at the end of memory, the first and the last pair. -/
theorem witness_stored_code : State.reset.mem.wf = true ∧ (State.reset.setI 0x0FF0).dataAddr (15 : RegIdx).val = 0xFFF ∧
    (1 : RegIdx).val = (0 : RegIdx).val + 1 ∧ (1 : RegIdx) ≤ 15 ∧ (15 : RegIdx).val = (14 : RegIdx).val + 1 ∧ (15 : RegIdx) ≤ 15 ∧
    (State.reset.setPc 0x0FF0).pc.toNat = (State.reset.setI 0x0FF0).dataAddr (0 : RegIdx).val ∧
    (State.reset.setPc 0x0FFE).pc.toNat = (State.reset.setI 0x0FF0).dataAddr (14 : RegIdx).val := by decide

/-- `LoadEstablishesTheResetState`: the longest ROM image. -/
theorem witness_load : (withEvent State.reset (.load (List.replicate 3584 0xA5))).io.events =
    .load (List.replicate 3584 0xA5) :: [] ∧ (List.replicate 3584 (0xA5 : Byte)).length ≤ 3584 :=
  ⟨rfl, Nat.le_of_eq List.length_replicate⟩

/-- `LoadRefusesAnOversizedRom`: one byte more. -/
theorem witness_load_refused : (withEvent State.reset (.load (List.replicate 3585 0xA5))).io.events =
    .load (List.replicate 3585 0xA5) :: [] ∧ (List.replicate 3585 (0xA5 : Byte)).length > 3584 :=
  ⟨rfl, Nat.lt_of_lt_of_eq (by decide : 3584 < 3585) List.length_replicate.symm⟩

/-- `NoEventHasAMeaningBeforeALoad`, both clauses. -/
theorem witness_no_machine : (State.loaded { State.reset with loaded := false }) = false ∧
    (withEvent { State.reset with loaded := false } (.step 0 0)).io.events = .step 0 0 :: [] ∧
    (withEvent { State.reset with loaded := false } .timerTick).io.events = .timerTick :: [] :=
  ⟨rfl, rfl, rfl⟩

/-- `AnEmptyQueueMeansAFreeEvent`. -/
theorem witness_empty_queue : State.reset.io.events = [] := rfl

/-- `StepKeepsTheInvariant`: the invariant holds at reset with a queued event, and that event is a step that goes on. -/
theorem witness_invariant : (withEvent State.reset (.step 0 0)).Inv ∧
    ∃ t, step (withEvent State.reset (.step 0 0)) = .next t := by
  refine ⟨⟨rfl, by decide, ?_, ?_, ?_⟩, _, rfl⟩
  · intro k hk
    exact absurd hk (Nat.not_lt_zero _)
  · intro t h
    exact absurd h (by simp [withEvent, State.reset])
  · intro f h
    exact absurd h (by simp [withEvent, State.reset])

/-- `NoEventChangesTheFontParameter`: a load, the one event that rewrites the font area. -/
theorem witness_font : ∃ t, step (withEvent State.reset (.load [0x12, 0x00])) = .next t := ⟨_, rfl⟩

/-- `FaultCodesAreThoseOfTheTable`, both clauses with a hypothesis. -/
theorem witness_codes : State.reset.fault = none ∧
    (State.reset.raise .keyIndexOutOfRange 0xE59E 16).fault = faultAt200 .keyIndexOutOfRange 0xE59E 16 := ⟨rfl, rfl⟩


end Sys2Proof.Tests
end

section
/-! The skips on an immediate (41_control_flow.md, R133, R134): how their words decode, what they execute, and what a skip
leaves unchanged. -/

namespace Sys2Proof.Certificates

open Sys2Proof.Machine

/-! The words `3xnn` and `4xnn` (R95) -/

@[simp] theorem decodeWord_formatXNN_three (x : RegIdx) (nn : Byte) :
    decodeWord (formatXNN 0x3#4 x nn) = .ok (.seImm x nn) := by
  simp [decodeWord]

@[simp] theorem decodeWord_formatXNN_four (x : RegIdx) (nn : Byte) :
    decodeWord (formatXNN 0x4#4 x nn) = .ok (.sneImm x nn) := by
  simp [decodeWord]

/-! What a skip on an immediate executes -/

theorem exec_seImm (x : RegIdx) (nn : Byte) (s : State) :
    exec (.seImm x nn) s = .next (s.advanceSkipIf (s.reg x == nn)) := rfl

theorem exec_sneImm (x : RegIdx) (nn : Byte) (s : State) :
    exec (.sneImm x nn) s = .next (s.advanceSkipIf (s.reg x != nn)) := rfl

/-- A skip, taken or not, changes `pc` only (R133, R134). -/
theorem frame_advanceSkipIf (s : State) (c : Bool) : Frame [] [] [] s (s.advanceSkipIf c) := by
  constructor <;> simp

/-- Settles O12: the skip condition is the equality of `V[x]` and `nn`. -/
theorem seImmSkipsOnEqual : Obligations.SeImmSkipsOnEqual := by
  intro x nn
  refine ⟨decodeWord_formatXNN_three x nn, fun s => ⟨_, exec_seImm x nn s, ?pc, frame_advanceSkipIf s _⟩⟩
  case pc => simp only [State.advanceSkipIf_pc, beq_iff_eq]

/-- Settles O13: the skip condition is the inequality of `V[x]` and `nn`, so the two advances change places. -/
theorem sneImmSkipsOnUnequal : Obligations.SneImmSkipsOnUnequal := by
  intro x nn
  refine ⟨decodeWord_formatXNN_four x nn, fun s => ⟨_, exec_sneImm x nn s, ?pc, frame_advanceSkipIf s _⟩⟩
  case pc => simp only [State.advanceSkipIf_pc, bne_iff_ne, ne_eq, ite_not]

end Sys2Proof.Certificates
end

section
/-! The register loads and the add of an immediate (42_alu.md, R152, R153, R154): how their words decode, what they
execute, and what writing one register and advancing `pc` leaves unchanged. -/

namespace Sys2Proof.Certificates

open Sys2Proof.Machine

/-! The words `6xnn`, `7xnn` and `8xy0` (R95) -/

@[simp] theorem decodeWord_formatXNN_six (x : RegIdx) (nn : Byte) :
    decodeWord (formatXNN 0x6#4 x nn) = .ok (.ldImm x nn) := by
  simp [decodeWord]

@[simp] theorem decodeWord_formatXNN_seven (x : RegIdx) (nn : Byte) :
    decodeWord (formatXNN 0x7#4 x nn) = .ok (.addImm x nn) := by
  simp [decodeWord]

/-- A word of category 8 is decoded by its low nibble (R97). -/
theorem decodeWord_formatXYN_eight (x y : RegIdx) (n : BitVec 4) :
    decodeWord (formatXYN 0x8#4 x y n) = decodeCategory8 (formatXYN 0x8#4 x y n) := by
  simp [decodeWord]

@[simp] theorem decodeWord_formatXYN_eight_zero (x y : RegIdx) :
    decodeWord (formatXYN 0x8#4 x y 0x0#4) = .ok (.ldReg x y) := by
  simp [decodeWord_formatXYN_eight, decodeCategory8]

/-! What they execute -/

theorem exec_ldImm (x : RegIdx) (nn : Byte) (s : State) :
    exec (.ldImm x nn) s = .next (s.setReg x nn).advance := rfl

theorem exec_addImm (x : RegIdx) (nn : Byte) (s : State) :
    exec (.addImm x nn) s = .next (s.setReg x (s.reg x + nn)).advance := rfl

theorem exec_ldReg (x y : RegIdx) (s : State) :
    exec (.ldReg x y) s = .next (s.setReg x (s.reg y)).advance := rfl

/-! Writing one register and advancing `pc` -/

theorem reg_setReg_advance (s : State) (x : RegIdx) (v : Byte) : (s.setReg x v).advance.reg x = v := by
  simp

theorem pc_setReg_advance (s : State) (x : RegIdx) (v : Byte) : (s.setReg x v).advance.pc = s.pc + 2 := rfl

/-- Nothing but `V[x]` and `pc` changes; for `x` other than 15 this keeps VF (R23). -/
theorem frame_setReg_advance (s : State) (x : RegIdx) (v : Byte) :
    Frame [x] [] [] s (s.setReg x v).advance := by
  constructor
  case reg =>
    intro r hr
    have hne : r ≠ x := List.ne_of_not_mem_cons hr
    rw [State.reg_advance, State.reg_setReg, if_neg hne]
  all_goals simp

/-- Settles O17: the value written to `V[x]` is `nn`. -/
theorem ldImmLoadsTheImmediate : Obligations.LdImmLoadsTheImmediate := by
  intro x nn
  exact ⟨decodeWord_formatXNN_six x nn, fun s => ⟨_, exec_ldImm x nn s,
    reg_setReg_advance s x _, pc_setReg_advance s x _, frame_setReg_advance s x _⟩⟩

/-- Settles O18: the value written to `V[x]` is the 8-bit sum, which is the sum of the numbers modulo 256. -/
theorem addImmWrapsAndWritesNoFlag : Obligations.AddImmWrapsAndWritesNoFlag := by
  intro x nn
  refine ⟨decodeWord_formatXNN_seven x nn, fun s => ⟨_, exec_addImm x nn s,
    ?sum, pc_setReg_advance s x _, frame_setReg_advance s x _⟩⟩
  case sum => rw [reg_setReg_advance, BitVec.toNat_add]

/-- Settles O19: the value written to `V[x]` is the old `V[y]`, also with `x = y`. -/
theorem ldRegCopiesTheRegister : Obligations.LdRegCopiesTheRegister := by
  intro x y
  exact ⟨decodeWord_formatXYN_eight_zero x y, fun s => ⟨_, exec_ldReg x y s,
    reg_setReg_advance s x _, pc_setReg_advance s x _, frame_setReg_advance s x _⟩⟩

end Sys2Proof.Certificates
end

section
/-! The load of the index register (43_index_memory.md, R180): how its words decode, what it executes, and what writing `I`
and advancing `pc` leaves unchanged. -/

namespace Sys2Proof.Certificates

open Sys2Proof.Machine

/-- The words `Annn` (R95). -/
@[simp] theorem decodeWord_formatNNN_ten (nnn : Imm12) : decodeWord (formatNNN 0xA#4 nnn) = .ok (.ldI nnn) := by
  simp [decodeWord]

theorem exec_ldI (nnn : Imm12) (s : State) : exec (.ldI nnn) s = .next (s.setI (zext16 nnn)).advance := rfl

/-- Zero extension of an address keeps its value: 12 bits fit in 16. -/
theorem zext16_imm12_toNat (nnn : Imm12) : (zext16 nnn).toNat = nnn.toNat :=
  BitVec.toNat_setWidth_of_le (by decide)

/-! Writing `I` and advancing `pc` -/

theorem I_setI_advance (s : State) (a : Word) : (s.setI a).advance.I = a := rfl

theorem pc_setI_advance (s : State) (a : Word) : (s.setI a).advance.pc = s.pc + 2 := rfl

/-- Nothing but `I`, which the frame leaves open, and `pc` changes (R180). -/
theorem frame_setI_advance (s : State) (a : Word) : Frame [] [.I] [] s (s.setI a).advance := by
  constructor
  case I => exact fun hI => absurd (List.mem_singleton_self _) hI
  all_goals simp

/-- Settles O27: the value written to `I` is `nnn` zero-extended to 16 bits. -/
theorem ldILoadsTheAddress : Obligations.LdILoadsTheAddress := by
  intro nnn
  refine ⟨decodeWord_formatNNN_ten nnn, fun s => ⟨_, exec_ldI nnn s,
    ?address, pc_setI_advance s _, frame_setI_advance s _⟩⟩
  case address => rw [I_setI_advance, zext16_imm12_toNat]

end Sys2Proof.Certificates
end

section
/-! The decoder and the encoder against each other and against the opcode map (30_encoding.md, R91 to R102): every
instruction decodes from its word, every word that decodes is the word of what it decodes to, and the words that decode are
those of the 34 rows. -/

namespace Sys2Proof.Certificates

open Sys2Proof.Machine

/-! ## Decoding what the encoder wrote -/

/-- A word of category E is decoded by its low byte (R98). -/
theorem decodeWord_formatXNN_fourteen (x : RegIdx) (nn : Byte) :
    decodeWord (formatXNN 0xE#4 x nn) = decodeCategoryE (formatXNN 0xE#4 x nn) := by
  simp [decodeWord]

/-- A word of category F is decoded by its low byte (R99). -/
theorem decodeWord_formatXNN_fifteen (x : RegIdx) (nn : Byte) :
    decodeWord (formatXNN 0xF#4 x nn) = decodeCategoryF (formatXNN 0xF#4 x nn) := by
  simp [decodeWord]

/-- The skips on registers decode when the low nibble is 0 (R100). -/
theorem decodeSkipReg_formatXYN_zero (i : Instr) (c : BitVec 4) (x y : RegIdx) :
    decodeSkipReg i (formatXYN c x y 0x0#4) = .ok i :=
  if_pos (Fin.ext (fieldN_formatXYN c x y 0x0#4))

/-- The word of an instruction decodes to that instruction: category by category, as the decoder dispatches. -/
theorem decodeWord_encode (i : Instr) : decodeWord (encode i) = .ok i := by
  cases i
  case cls | ret => rfl
  case jp | call | ldI | jpV0 => simp [encode, decodeWord]
  case seImm | sneImm | ldImm | addImm | rnd => simp [encode, decodeWord]
  case seReg | sneReg => simp [encode, decodeWord, decodeSkipReg_formatXYN_zero]
  case ldReg | orReg | andReg | xorReg | addReg | subReg | shr | subnReg | shl =>
    simp [encode, decodeWord_formatXYN_eight, decodeCategory8]
  case drw => simp [encode, decodeWord, Fin.ext_iff, nibble_toNat]
  case skp | sknp => simp [encode, decodeWord_formatXNN_fourteen, decodeCategoryE]
  case ldVxDT | ldVxK | ldDTVx | ldSTVx | addI | ldF | ldB | storeRegs | loadRegs =>
    simp [encode, decodeWord_formatXNN_fifteen, decodeCategoryF]

/-- Decoding the two bytes of a word decodes the word and leaves the bytes after them (R62, R91). -/
theorem decode_bytes_of_ok {w : Word} {i : Instr} (h : decodeWord w = .ok i) (rest : List Byte) :
    decode ([w.extractLsb' 8 8, w.extractLsb' 0 8] ++ rest) = .ok (i, rest) := by
  simp only [List.cons_append, List.nil_append, decode, wordOfBytes_extract, h]

/-- The field types hold the ranges of R92, so every instruction is well formed. -/
theorem wellFormed_eq_true (i : Instr) : i.wellFormed = true := by
  cases i <;> simp only [Instr.wellFormed, Bool.and_eq_true, decide_eq_true_eq] <;> omega

/-- Settles O1: the word of an instruction decodes to it, and the two bytes decode as their word does. -/
theorem decodeOfEncodedInstructionGivesItBack : Obligations.DecodeOfEncodedInstructionGivesItBack :=
  fun i rest => ⟨wellFormed_eq_true i, decode_bytes_of_ok (decodeWord_encode i) rest⟩

/-! ## Encoding what the decoder read

A word is the concatenation of its fields, in each of the three formats of R93. -/

theorem formatNNN_fields {w : Word} {c : BitVec 4} (hc : (fieldCategory w).toNat = c.toNat) :
    formatNNN c (fieldNNN w) = w := by
  apply BitVec.eq_of_toNat_eq
  rw [fieldCategory_toNat] at hc
  rw [formatNNN_toNat, fieldNNN_toNat]
  omega

theorem formatXNN_fields {w : Word} {c : BitVec 4} {nn : Byte} (hc : (fieldCategory w).toNat = c.toNat)
    (hnn : (fieldNN w).toNat = nn.toNat) : formatXNN c (fieldX w) nn = w := by
  apply BitVec.eq_of_toNat_eq
  rw [fieldCategory_toNat] at hc
  rw [fieldNN_toNat] at hnn
  rw [formatXNN_toNat, fieldX_val]
  omega

theorem formatXYN_fields {w : Word} {c n : BitVec 4} (hc : (fieldCategory w).toNat = c.toNat)
    (hn : (fieldN w).val = n.toNat) : formatXYN c (fieldX w) (fieldY w) n = w := by
  apply BitVec.eq_of_toNat_eq
  rw [fieldCategory_toNat] at hc
  rw [fieldN_val] at hn
  rw [formatXYN_toNat, fieldX_val, fieldY_val]
  omega

theorem encode_of_decodeCategory0 {w : Word} {i : Instr} (h : decodeCategory0 w = .ok i) : encode i = w := by
  unfold decodeCategory0 at h
  split at h
  case isTrue hw => cases h; exact hw.symm
  case isFalse =>
    split at h <;> cases h
    case isTrue hw => exact hw.symm

theorem encode_of_decodeCategory8 {w : Word} {i : Instr} (hc : (fieldCategory w).toNat = 8)
    (h : decodeCategory8 w = .ok i) : encode i = w := by
  simp only [decodeCategory8] at h
  split at h <;> cases h <;> exact formatXYN_fields hc ‹_›

theorem encode_of_decodeCategoryE {w : Word} {i : Instr} (hc : (fieldCategory w).toNat = 14)
    (h : decodeCategoryE w = .ok i) : encode i = w := by
  simp only [decodeCategoryE] at h
  split at h <;> cases h <;> exact formatXNN_fields hc ‹_›

theorem encode_of_decodeCategoryF {w : Word} {i : Instr} (hc : (fieldCategory w).toNat = 15)
    (h : decodeCategoryF w = .ok i) : encode i = w := by
  simp only [decodeCategoryF] at h
  split at h <;> cases h <;> exact formatXNN_fields hc ‹_›

/-- A skip on registers decodes from a word with low nibble 0 only (R100). -/
theorem eq_and_fieldN_of_decodeSkipReg {w : Word} {i j : Instr} (h : decodeSkipReg j w = .ok i) :
    i = j ∧ (fieldN w).val = 0 := by
  unfold decodeSkipReg at h
  split at h <;> cases h
  case isTrue hn => exact ⟨rfl, congrArg Fin.val hn⟩

/-- A word that decodes is the word of what it decodes to: category by category, as the decoder dispatches. -/
theorem encode_of_decodeWord {w : Word} {i : Instr} (h : decodeWord w = .ok i) : encode i = w := by
  unfold decodeWord at h
  split at h
  case h_1 => exact encode_of_decodeCategory0 h
  case h_2 hc | h_3 hc | h_11 hc | h_12 hc => cases h; exact formatNNN_fields hc
  case h_4 hc | h_5 hc | h_7 hc | h_8 hc | h_13 hc => cases h; exact formatXNN_fields hc rfl
  case h_6 hc | h_10 hc =>
    obtain ⟨rfl, hn⟩ := eq_and_fieldN_of_decodeSkipReg h
    exact formatXYN_fields hc hn
  case h_9 hc => exact encode_of_decodeCategory8 hc h
  case h_14 hc => cases h; exact formatXYN_fields hc rfl
  case h_15 hc => exact encode_of_decodeCategoryE hc h
  case h_16 =>
    have hlt := (fieldCategory w).isLt
    have hc : (fieldCategory w).toNat = 15 := by grind
    exact encode_of_decodeCategoryF hc h

/-- Settles O2: each field that the decoder reads is put back where it stood, and the category and the secondary
discriminant are those of the form. -/
theorem encodeOfDecodedWordIsTheWord : Obligations.EncodeOfDecodedWordIsTheWord :=
  fun _ _ h => encode_of_decodeWord h

end Sys2Proof.Certificates
end

section
/-! The rows of the opcode map (R95): the words of a row are the words of its form, and no word is in two rows. -/

namespace Sys2Proof.Certificates

open Sys2Proof.Machine Sys2Proof.Laws

/-! ## What the three masks of the map keep of a word -/

theorem and_mask_category (w : Word) : w &&& 0xF000#16 = formatNNN (fieldCategory w) 0 := by
  conv_lhs => rw [← formatNNN_fields (w := w) rfl, RowMatch.formatNNN_and]

theorem and_mask_nibble (w : Word) : w &&& 0xF00F#16 = formatXYN (fieldCategory w) 0 0 (nibble (fieldN w)) := by
  conv_lhs => rw [← formatXYN_fields (w := w) rfl (nibble_toNat (fieldN w)).symm, RowMatch.formatXYN_and_nibble]

theorem and_mask_byte (w : Word) : w &&& 0xF0FF#16 = formatXNN (fieldCategory w) 0 (fieldNN w) := by
  conv_lhs => rw [← formatXNN_fields (w := w) rfl rfl, RowMatch.formatXNN_and_byte]

/-! ## A word of a row is the word of an instruction of the row's form, by the format of R93 -/

theorem category_of_and_mask {w : Word} (c : BitVec 4) (h : w &&& 0xF000#16 = formatNNN c 0) :
    (fieldCategory w).toNat = c.toNat := by
  have hf := congrArg fieldCategory ((and_mask_category w).symm.trans h)
  simp only [fieldCategory_formatNNN] at hf
  rw [hf]

theorem formatNNN_of_and {w : Word} (c : BitVec 4) (h : w &&& 0xF000#16 = formatNNN c 0) :
    formatNNN c (fieldNNN w) = w :=
  formatNNN_fields (category_of_and_mask c h)

theorem formatXNN_of_and {w : Word} (c : BitVec 4) (h : w &&& 0xF000#16 = formatNNN c 0) :
    formatXNN c (fieldX w) (fieldNN w) = w :=
  formatXNN_fields (category_of_and_mask c h) rfl

theorem formatXYN_of_and {w : Word} (c : BitVec 4) (h : w &&& 0xF000#16 = formatNNN c 0) :
    formatXYN c (fieldX w) (fieldY w) (nibble (fieldN w)) = w :=
  formatXYN_fields (category_of_and_mask c h) rfl

theorem formatXYN_of_and_nibble {w : Word} (c n : BitVec 4) (h : w &&& 0xF00F#16 = formatXYN c 0 0 n) :
    formatXYN c (fieldX w) (fieldY w) n = w := by
  have hw := (and_mask_nibble w).symm.trans h
  have hc := congrArg fieldCategory hw
  have hn := congrArg (fun v => (fieldN v).val) hw
  simp only [fieldCategory_formatXYN, fieldN_formatXYN, nibble_toNat] at hc hn
  exact formatXYN_fields (congrArg BitVec.toNat hc) hn

theorem formatXNN_of_and_byte {w : Word} (c : BitVec 4) (nn : Byte) (h : w &&& 0xF0FF#16 = formatXNN c 0 nn) :
    formatXNN c (fieldX w) nn = w := by
  have hw := (and_mask_byte w).symm.trans h
  have hc := congrArg fieldCategory hw
  have hnn := congrArg fieldNN hw
  simp only [fieldCategory_formatXNN, fieldNN_formatXNN] at hc hnn
  exact formatXNN_fields (congrArg BitVec.toNat hc) (congrArg BitVec.toNat hnn)

theorem eq_of_and_all_ones {w v : Word} (h : w &&& 0xFFFF#16 = v) : v = w := by
  rw [← h]
  exact BitVec.and_allOnes

/-! The four parts of the map -/

theorem exists_encode_of_mem_rows1 {w : Word} {r : OpcodeRow} (hr : r ∈ opcodeRows1) (h : w &&& r.mask = r.bits) :
    ∃ i, encode i = w := by
  fin_cases hr
  · exact ⟨.cls, eq_of_and_all_ones h⟩
  · exact ⟨.ret, eq_of_and_all_ones h⟩
  · exact ⟨.jp _, formatNNN_of_and 0x1 h⟩
  · exact ⟨.call _, formatNNN_of_and 0x2 h⟩
  · exact ⟨.seImm _ _, formatXNN_of_and 0x3 h⟩
  · exact ⟨.sneImm _ _, formatXNN_of_and 0x4 h⟩
  · exact ⟨.seReg _ _, formatXYN_of_and_nibble 0x5 0x0 h⟩
  · exact ⟨.ldImm _ _, formatXNN_of_and 0x6 h⟩
  · exact ⟨.addImm _ _, formatXNN_of_and 0x7 h⟩

theorem exists_encode_of_mem_rows2 {w : Word} {r : OpcodeRow} (hr : r ∈ opcodeRows2) (h : w &&& r.mask = r.bits) :
    ∃ i, encode i = w := by
  fin_cases hr
  · exact ⟨.ldReg _ _, formatXYN_of_and_nibble 0x8 0x0 h⟩
  · exact ⟨.orReg _ _, formatXYN_of_and_nibble 0x8 0x1 h⟩
  · exact ⟨.andReg _ _, formatXYN_of_and_nibble 0x8 0x2 h⟩
  · exact ⟨.xorReg _ _, formatXYN_of_and_nibble 0x8 0x3 h⟩
  · exact ⟨.addReg _ _, formatXYN_of_and_nibble 0x8 0x4 h⟩
  · exact ⟨.subReg _ _, formatXYN_of_and_nibble 0x8 0x5 h⟩
  · exact ⟨.shr _ _, formatXYN_of_and_nibble 0x8 0x6 h⟩
  · exact ⟨.subnReg _ _, formatXYN_of_and_nibble 0x8 0x7 h⟩
  · exact ⟨.shl _ _, formatXYN_of_and_nibble 0x8 0xE h⟩

theorem exists_encode_of_mem_rows3 {w : Word} {r : OpcodeRow} (hr : r ∈ opcodeRows3) (h : w &&& r.mask = r.bits) :
    ∃ i, encode i = w := by
  fin_cases hr
  · exact ⟨.sneReg _ _, formatXYN_of_and_nibble 0x9 0x0 h⟩
  · exact ⟨.ldI _, formatNNN_of_and 0xA h⟩
  · exact ⟨.jpV0 _, formatNNN_of_and 0xB h⟩
  · exact ⟨.rnd _ _, formatXNN_of_and 0xC h⟩
  · exact ⟨.drw _ _ _, formatXYN_of_and 0xD h⟩
  · exact ⟨.skp _, formatXNN_of_and_byte 0xE 0x9E h⟩
  · exact ⟨.sknp _, formatXNN_of_and_byte 0xE 0xA1 h⟩

theorem exists_encode_of_mem_rows4 {w : Word} {r : OpcodeRow} (hr : r ∈ opcodeRows4) (h : w &&& r.mask = r.bits) :
    ∃ i, encode i = w := by
  fin_cases hr
  · exact ⟨.ldVxDT _, formatXNN_of_and_byte 0xF 0x07 h⟩
  · exact ⟨.ldVxK _, formatXNN_of_and_byte 0xF 0x0A h⟩
  · exact ⟨.ldDTVx _, formatXNN_of_and_byte 0xF 0x15 h⟩
  · exact ⟨.ldSTVx _, formatXNN_of_and_byte 0xF 0x18 h⟩
  · exact ⟨.addI _, formatXNN_of_and_byte 0xF 0x1E h⟩
  · exact ⟨.ldF _, formatXNN_of_and_byte 0xF 0x29 h⟩
  · exact ⟨.ldB _, formatXNN_of_and_byte 0xF 0x33 h⟩
  · exact ⟨.storeRegs _, formatXNN_of_and_byte 0xF 0x55 h⟩
  · exact ⟨.loadRegs _, formatXNN_of_and_byte 0xF 0x65 h⟩

theorem exists_encode_of_mem_rows {w : Word} {r : OpcodeRow} (hr : r ∈ opcodeRows) (h : w &&& r.mask = r.bits) :
    ∃ i, encode i = w := by
  simp only [opcodeRows, List.mem_append] at hr
  rcases hr with ((hr | hr) | hr) | hr
  · exact exists_encode_of_mem_rows1 hr h
  · exact exists_encode_of_mem_rows2 hr h
  · exact exists_encode_of_mem_rows3 hr h
  · exact exists_encode_of_mem_rows4 hr h

/-! ## The map is the decoder's domain, and its rows are disjoint -/

/-- The word of an instruction is in the row of its form. -/
theorem rowMatch_statement : ∀ i, RowMatch.Statement i
  | .cls => RowMatch.cls
  | .ret => RowMatch.ret
  | .jp nnn => RowMatch.jp nnn
  | .call nnn => RowMatch.call nnn
  | .seImm x nn => RowMatch.seImm x nn
  | .sneImm x nn => RowMatch.sneImm x nn
  | .seReg x y => RowMatch.seReg x y
  | .ldImm x nn => RowMatch.ldImm x nn
  | .addImm x nn => RowMatch.addImm x nn
  | .ldReg x y => RowMatch.ldReg x y
  | .orReg x y => RowMatch.orReg x y
  | .andReg x y => RowMatch.andReg x y
  | .xorReg x y => RowMatch.xorReg x y
  | .addReg x y => RowMatch.addReg x y
  | .subReg x y => RowMatch.subReg x y
  | .shr x y => RowMatch.shr x y
  | .subnReg x y => RowMatch.subnReg x y
  | .shl x y => RowMatch.shl x y
  | .sneReg x y => RowMatch.sneReg x y
  | .ldI nnn => RowMatch.ldI nnn
  | .jpV0 nnn => RowMatch.jpV0 nnn
  | .rnd x nn => RowMatch.rnd x nn
  | .drw x y n => RowMatch.drw x y n
  | .skp x => RowMatch.skp x
  | .sknp x => RowMatch.sknp x
  | .ldVxDT x => RowMatch.ldVxDT x
  | .ldVxK x => RowMatch.ldVxK x
  | .ldDTVx x => RowMatch.ldDTVx x
  | .ldSTVx x => RowMatch.ldSTVx x
  | .addI x => RowMatch.addI x
  | .ldF x => RowMatch.ldF x
  | .ldB x => RowMatch.ldB x
  | .storeRegs x => RowMatch.storeRegs x
  | .loadRegs x => RowMatch.loadRegs x

/-- A word decodes exactly when a row of the map holds of it (R95, R101). -/
theorem exists_decodeWord_iff (w : Word) :
    (∃ i, decodeWord w = .ok i) ↔ ∃ r ∈ opcodeRows, w &&& r.mask = r.bits := by
  constructor
  · rintro ⟨i, h⟩
    obtain ⟨r, hr, hm⟩ := rowMatch_statement i
    exact ⟨r, List.mem_of_getElem? hr, encode_of_decodeWord h ▸ hm⟩
  · rintro ⟨r, hr, hm⟩
    obtain ⟨i, rfl⟩ := exists_encode_of_mem_rows hr hm
    exact ⟨i, decodeWord_encode i⟩

/-- On the bits that both masks fix, two different rows of the map disagree. -/
theorem eq_of_bits_and_mask :
    ∀ r ∈ opcodeRows, ∀ q ∈ opcodeRows, r.bits &&& q.mask = q.bits &&& r.mask → r = q := by
  decide

/-- Settles O3: the rows are the words of the 34 forms, and a word in two rows would give their common bits two values. -/
theorem legalWordsAreTheRowsOfTheOpcodeMap : Obligations.LegalWordsAreTheRowsOfTheOpcodeMap := by
  intro w
  refine ⟨exists_decodeWord_iff w, fun r hr q hq hwr hwq => eq_of_bits_and_mask r hr q hq ?_⟩
  rw [← hwr, ← hwq, BitVec.and_assoc, BitVec.and_assoc, BitVec.and_comm r.mask]

/-- Settles O4: the legal words are the words of the instructions named there, and each illegal word fails the test of its
category. -/
theorem wordsOfTheTestVectorsDecode : Obligations.WordsOfTheTestVectorsDecode :=
  ⟨decodeWord_encode (.ldImm 0xA 0x7F), decodeWord_encode (.drw 1 2 5), decodeWord_encode (.addReg 0xA 0xB),
    decodeWord_encode (.loadRegs 3), decodeWord_encode .cls, decodeWord_encode (.jpV0 0x204),
    decodeWord_encode (.sknp 5), decodeWord_encode (.shr 1 0xA), by decide, by decide, by decide, by decide, by decide⟩

end Sys2Proof.Certificates
end

section
/-! What an instruction does, said once: the fault it takes, if its tests fail, and the state it leaves otherwise (R239,
R241). Every claim about all instructions is derived from `exec_eq`. -/

namespace Sys2Proof.Certificates

open Sys2Proof.Machine

/-- The fault that an instruction takes in `s`, with the recorded value; `none` when its tests pass (R130, R132, R71, R200,
R201). -/
def faultOf (s : State) : Instr → Option (FaultCause × Nat)
  | .ret => if s.depth.val = 0 then some (.stackUnderflow, 0) else none
  | .call _ => if s.depth.val = 16 then some (.stackOverflow, 0) else none
  | .drw _ y n =>
    if 0 < rowsDrawn s y n ∧ 0xFFF < s.dataAddr (rowsDrawn s y n - 1)
    then some (.dataOutOfBounds, s.dataAddr (rowsDrawn s y n - 1)) else none
  | .skp x | .sknp x => if 15 < (s.reg x).toNat then some (.keyIndexOutOfRange, (s.reg x).toNat) else none
  | .ldB _ => if 0xFFF < s.dataAddr 2 then some (.dataOutOfBounds, s.dataAddr 2) else none
  | .storeRegs x | .loadRegs x => if 0xFFF < s.dataAddr x.val then some (.dataOutOfBounds, s.dataAddr x.val) else none
  | .cls | .jp _ | .seImm _ _ | .sneImm _ _ | .seReg _ _ | .sneReg _ _ | .jpV0 _ | .ldImm _ _ | .addImm _ _ | .ldReg _ _
  | .orReg _ _ | .andReg _ _ | .xorReg _ _ | .addReg _ _ | .subReg _ _ | .shr _ _ | .subnReg _ _ | .shl _ _ | .ldI _
  | .rnd _ _ | .ldVxDT _ | .ldVxK _ | .ldDTVx _ | .ldSTVx _ | .addI _ | .ldF _ => none

/-- The state that an instruction leaves when it takes no fault. -/
def doneBy (s : State) : Instr → State
  | .cls => (s.display 0).advance
  | .ret => { s with pc := s.stack[s.depth.val - 1], depth := ⟨s.depth.val - 1, by omega⟩ }
  | .jp nnn => s.setPc (zext16 nnn)
  | .call nnn => { s with
      stack := s.stack.setIfInBounds s.depth.val s.nextPc
      depth := ⟨min (s.depth.val + 1) 16, by omega⟩
      pc := zext16 nnn }
  | .seImm x nn => s.advanceSkipIf (s.reg x == nn)
  | .sneImm x nn => s.advanceSkipIf (s.reg x != nn)
  | .seReg x y => s.advanceSkipIf (s.reg x == s.reg y)
  | .ldImm x nn => (s.setReg x nn).advance
  | .addImm x nn => (s.setReg x (s.reg x + nn)).advance
  | .ldReg x y => (s.setReg x (s.reg y)).advance
  | .orReg x y => (s.setReg x (s.reg x ||| s.reg y)).advance
  | .andReg x y => (s.setReg x (s.reg x &&& s.reg y)).advance
  | .xorReg x y => (s.setReg x (s.reg x ^^^ s.reg y)).advance
  | .addReg x y => (s.setResultAndFlag x (s.reg x + s.reg y) (carryOut (s.reg x) (s.reg y))).advance
  | .subReg x y => (s.setResultAndFlag x (s.reg x - s.reg y) (strictlyAbove (s.reg x) (s.reg y))).advance
  | .shr x _ => (s.setResultAndFlag x (s.reg x >>> 1) (shiftedOutRight (s.reg x))).advance
  | .subnReg x y => (s.setResultAndFlag x (s.reg y - s.reg x) (strictlyAbove (s.reg y) (s.reg x))).advance
  | .shl x _ => (s.setResultAndFlag x (s.reg x <<< 1) (shiftedOutLeft (s.reg x))).advance
  | .sneReg x y => s.advanceSkipIf (s.reg x != s.reg y)
  | .ldI nnn => (s.setI (zext16 nnn)).advance
  | .jpV0 nnn => s.setPc (zext16 (s.reg 0) + zext16 nnn)
  | .rnd x nn => (s.setReg x (s.io.rnd &&& nn)).advance
  | .drw x y n => s.draw x y (rowsDrawn s y n)
  | .skp x => s.advanceSkipIf (s.keyHeld (s.reg x))
  | .sknp x => s.advanceSkipIf (!s.keyHeld (s.reg x))
  | .ldVxDT x => (s.setReg x s.DT).advance
  | .ldVxK x => { s with status := .awaitingKey x, prevKeys := s.io.keys }
  | .ldDTVx x => (s.setDT (s.reg x)).advance
  | .ldSTVx x => (s.setST (s.reg x)).advance
  | .addI x => (s.setI (s.I + zext16 (s.reg x))).advance
  | .ldF x => (s.setI (zext16 (s.reg x) * 5)).advance
  | .ldB x => (s.setMem (s.mem.writeBytes (s.dataAddr 0) (bcdDigits (s.reg x)))).advance
  | .storeRegs x => (s.setMem (s.mem.writeBytes (s.dataAddr 0) (s.regsUpTo x))).advance
  | .loadRegs x => (s.setV (loadRegFile s.mem (s.dataAddr 0) s.V (x.val + 1))).advance

/-- The state after an instruction: the fault taken, or what the instruction does. -/
def nextBy (s : State) (i : Instr) : State :=
  match faultOf s i with
  | some (cause, info) => s.raise cause (encode i) info
  | none => doneBy s i

theorem nextBy_of_some {s : State} {i : Instr} {c : FaultCause} {n : Nat} (h : faultOf s i = some (c, n)) :
    nextBy s i = s.raise c (encode i) n := by
  simp only [nextBy, h]

theorem nextBy_of_none {s : State} {i : Instr} (h : faultOf s i = none) : nextBy s i = doneBy s i := by
  simp only [nextBy, h]

/-- The next state when the fault of the instruction is decided by one test. -/
theorem nextBy_of_ite {s : State} {i : Instr} {p : Prop} [Decidable p] {c : FaultCause} {n : Nat}
    (h : faultOf s i = if p then some (c, n) else none) :
    nextBy s i = if p then s.raise c (encode i) n else doneBy s i := by
  split
  case isTrue hp => exact nextBy_of_some (h.trans (if_pos hp))
  case isFalse hp => exact nextBy_of_none (h.trans (if_neg hp))

/-- A bounds test on data is a fault or the body (R71). -/
theorem withData_eq_ite (s : State) (i : Instr) (k : Nat) (body : State) :
    s.withData i k body =
      .next (if 0xFFF < s.dataAddr k then s.raise .dataOutOfBounds (encode i) (s.dataAddr k) else body) := by
  split
  case isTrue h => exact State.withData_of_gt h
  case isFalse h => exact State.withData_of_le (Nat.not_lt.mp h)

/-- A test on a key index is a fault or the body (R200, R201). -/
theorem withKey_eq_ite (s : State) (i : Instr) (k : Byte) (body : State) :
    s.withKey i k body =
      .next (if 15 < k.toNat then s.raise .keyIndexOutOfRange (encode i) k.toNat else body) := by
  split
  case isTrue h => exact State.withKey_of_gt h
  case isFalse h => exact State.withKey_of_le (Nat.not_lt.mp h)

theorem execRet_eq (s : State) : execRet s = .next (nextBy s .ret) := by
  rw [nextBy_of_ite (i := .ret) rfl, execRet]
  split <;> rfl

/-- A push inside the stack writes the cell. -/
theorem push_eq_set {k : Nat} (h : k < 16) (stack : Stack) (v : Word) : stack.setIfInBounds k v = stack.set k v h := by
  apply Vector.ext
  intro i hi
  rw [Vector.getElem_setIfInBounds, Vector.getElem_set]

theorem execCall_eq (nnn : Imm12) (s : State) : execCall nnn s = .next (nextBy s (.call nnn)) := by
  rw [nextBy_of_ite (i := .call nnn) rfl, execCall]
  split
  case isTrue => rfl
  case isFalse h =>
    have hlt : s.depth.val < 16 := by omega
    simp only [doneBy, push_eq_set hlt, Nat.min_eq_left (Nat.succ_le_of_lt hlt)]

theorem execDrw_eq (x y : RegIdx) (n : Fin 16) (s : State) : execDrw x y n s = .next (nextBy s (.drw x y n)) := by
  rw [nextBy_of_ite (i := .drw x y n) rfl, execDrw]
  have hrows : visibleRows n.val (s.originRow y) = rowsDrawn s y n := rfl
  split
  case h_1 h0 => rw [hrows] at h0; simp [h0, doneBy]
  case h_2 r hr => rw [hrows] at hr; simp [hr, withData_eq_ite, doneBy]

/-- Every instruction goes on, to the state that `nextBy` names (R239). -/
theorem exec_eq (i : Instr) (s : State) : exec i s = .next (nextBy s i) := by
  cases i
  case ret => exact execRet_eq s
  case call nnn => exact execCall_eq nnn s
  case drw x y n => exact execDrw_eq x y n s
  case skp | sknp => rw [nextBy_of_ite rfl]; exact withKey_eq_ite _ _ _ _
  case ldB | storeRegs | loadRegs => rw [nextBy_of_ite rfl]; exact withData_eq_ite _ _ _ _
  all_goals rfl

/-- An instruction that takes no fault leaves what it does. -/
theorem exec_of_none {s : State} {i : Instr} (h : faultOf s i = none) : exec i s = .next (doneBy s i) := by
  rw [exec_eq, nextBy_of_none h]

/-- An instruction that takes a fault leaves everything but the record. -/
theorem exec_of_some {s : State} {i : Instr} {c : FaultCause} {n : Nat} (h : faultOf s i = some (c, n)) :
    exec i s = .next (s.raise c (encode i) n) := by
  rw [exec_eq, nextBy_of_some h]

/-- What an instruction that goes on can have done: taken its fault, or its effect. -/
theorem exec_cases {s t : State} {i : Instr} (h : exec i s = .next t) :
    (∃ c n, faultOf s i = some (c, n) ∧ t = s.raise c (encode i) n) ∨ (faultOf s i = none ∧ t = doneBy s i) := by
  cases hf : faultOf s i with
  | none =>
    rw [exec_of_none hf] at h
    cases h
    exact .inr ⟨rfl, rfl⟩
  | some f =>
    obtain ⟨c, n⟩ := f
    rw [exec_of_some hf] at h
    cases h
    exact .inl ⟨c, n, rfl, rfl⟩

end Sys2Proof.Certificates
end

section
/-! Rules over all instructions: which fault comes from which instruction, which instruction writes which piece of state, and
which instruction sees the arguments of the step (R20 to R35, R47, R163, R239, R241). -/

namespace Sys2Proof.Certificates

open Sys2Proof.Machine

/-! ## Faults (R239, R241) -/

/-- Which instruction takes which fault, and when. -/
theorem faultOf_eq_some {s : State} {i : Instr} {c : FaultCause} {n : Nat} (h : faultOf s i = some (c, n)) :
    match c with
    | .stackOverflow => ∃ nnn, i = .call nnn ∧ s.sp = 15
    | .stackUnderflow => i = .ret ∧ s.sp = -1
    | .dataOutOfBounds => n > 0xFFF ∧
        ((∃ x y n, i = .drw x y n) ∨ ∃ x, i = .ldB x ∨ i = .storeRegs x ∨ i = .loadRegs x)
    | .keyIndexOutOfRange => n > 15 ∧ ∃ x, (i = .skp x ∨ i = .sknp x) ∧ n = (s.reg x).toNat
    | .decodeError => False
    | .fetchOutOfBounds => False := by
  cases i
  case ret =>
    obtain ⟨hd, ⟨⟩⟩ := Option.ite_none_right_eq_some.mp h
    exact ⟨rfl, by simp [State.sp, hd]⟩
  case call nnn =>
    obtain ⟨hd, ⟨⟩⟩ := Option.ite_none_right_eq_some.mp h
    exact ⟨nnn, rfl, by simp [State.sp, hd]⟩
  case drw x y n =>
    obtain ⟨⟨-, ha⟩, ⟨⟩⟩ := Option.ite_none_right_eq_some.mp h
    exact ⟨ha, .inl ⟨x, y, n, rfl⟩⟩
  case skp x =>
    obtain ⟨hk, ⟨⟩⟩ := Option.ite_none_right_eq_some.mp h
    exact ⟨hk, x, .inl rfl, rfl⟩
  case sknp x =>
    obtain ⟨hk, ⟨⟩⟩ := Option.ite_none_right_eq_some.mp h
    exact ⟨hk, x, .inr rfl, rfl⟩
  case ldB x =>
    obtain ⟨ha, ⟨⟩⟩ := Option.ite_none_right_eq_some.mp h
    exact ⟨ha, .inr ⟨x, .inl rfl⟩⟩
  case storeRegs x =>
    obtain ⟨ha, ⟨⟩⟩ := Option.ite_none_right_eq_some.mp h
    exact ⟨ha, .inr ⟨x, .inr (.inl rfl)⟩⟩
  case loadRegs x =>
    obtain ⟨ha, ⟨⟩⟩ := Option.ite_none_right_eq_some.mp h
    exact ⟨ha, .inr ⟨x, .inr (.inr rfl)⟩⟩
  all_goals cases h

/-- The eight forms of R239 are the only ones that take a fault. -/
theorem faultOf_eq_none_of_canFault {i : Instr} (h : canFault i = false) (s : State) : faultOf s i = none := by
  cases i
  case ret | call | drw | skp | sknp | ldB | storeRegs | loadRegs => cases h
  all_goals rfl

/-- No effect of an instruction records a fault: only `State.raise` does (R241). -/
@[simp] theorem doneBy_fault (s : State) (i : Instr) : (doneBy s i).fault = s.fault := by
  cases i <;> rfl

/-- Settles O45: an instruction that goes on without its fault leaves the record alone, so a record of a fault is that of
`State.raise`. -/
theorem faultsArePreciseAndOnlyTheirInstructionsRaiseThem :
    Obligations.FaultsArePreciseAndOnlyTheirInstructionsRaiseThem := by
  intro i s t f hs ht hf
  obtain ⟨c, n, hcn, rfl⟩ | ⟨-, rfl⟩ := exec_cases ht
  · cases hf
    refine ⟨rfl, rfl, rfl, ?source⟩
    case source => have hsource := faultOf_eq_some hcn; cases c <;> exact hsource
  · rw [doneBy_fault, hs] at hf
    cases hf

/-! ## Writers

For each piece of state, the effects that leave it as it was. -/

/-- The registers that `Fx65` loads are those up to `x` (R185). -/
theorem mem_upTo {r x : RegIdx} : r ∈ (List.finRange 16).filter (fun r => decide (r ≤ x)) ↔ r ≤ x := by
  simp

/-- A general register keeps its value unless the form names it (R20, R23). -/
theorem doneBy_reg (s : State) {i : Instr} {r : RegIdx} (h : r ∉ destinations i) : (doneBy s i).reg r = s.reg r := by
  cases i
  case ldImm | addImm | ldReg | orReg | andReg | xorReg | rnd | ldVxDT =>
    simp only [destinations, List.mem_singleton] at h
    simp [doneBy, h]
  case addReg | subReg | shr | subnReg | shl =>
    simp only [destinations, List.mem_cons, List.not_mem_nil, or_false, not_or] at h
    simp [doneBy, h]
  case drw =>
    simp only [destinations, List.mem_singleton] at h
    simp [doneBy, State.draw, vf, h]
  case loadRegs x =>
    have hr : ¬ r.val < x.val + 1 := fun hlt => h (mem_upTo.mpr (Nat.le_of_lt_succ hlt))
    simp [doneBy, State.reg_setV_loadRegFile, hr]
  all_goals rfl

/-- A form that does not steer `pc` advances it over itself (R25). -/
theorem doneBy_pc (s : State) {i : Instr} (h : steersPc i = false) : (doneBy s i).pc = s.pc + 2 := by
  cases i
  case ret | jp | call | seImm | sneImm | seReg | sneReg | jpV0 | skp | sknp | ldVxK => cases h
  all_goals rfl

/-- Only `00E0` and `Dxyn` write the display and report a redraw (R31, R46). -/
theorem doneBy_display (s : State) {i : Instr} (hcls : i ≠ .cls) (hdrw : ∀ x y n, i ≠ .drw x y n) :
    (doneBy s i).FB = s.FB ∧ (doneBy s i).io.redraw = s.io.redraw := by
  cases i
  case cls => exact absurd rfl hcls
  case drw x y n => exact absurd rfl (hdrw x y n)
  all_goals exact ⟨rfl, rfl⟩

/-- Only `Fx33` and `Fx55` write memory (R61). -/
theorem doneBy_mem (s : State) {i : Instr} (hldB : ∀ x, i ≠ .ldB x) (hstore : ∀ x, i ≠ .storeRegs x) :
    (doneBy s i).mem = s.mem := by
  cases i
  case ldB x => exact absurd rfl (hldB x)
  case storeRegs x => exact absurd rfl (hstore x)
  all_goals rfl

/-- Only `2nnn` writes a stack cell (R28). -/
theorem doneBy_stack (s : State) {i : Instr} (hcall : ∀ nnn, i ≠ .call nnn) : (doneBy s i).stack = s.stack := by
  cases i
  case call nnn => exact absurd rfl (hcall nnn)
  all_goals rfl

/-- Only `2nnn` and `00EE` move the stack pointer (R27). -/
theorem doneBy_depth (s : State) {i : Instr} (hcall : ∀ nnn, i ≠ .call nnn) (hret : i ≠ .ret) :
    (doneBy s i).depth = s.depth := by
  cases i
  case call nnn => exact absurd rfl (hcall nnn)
  case ret => exact absurd rfl hret
  all_goals rfl

/-- Only `Annn`, `Fx1E` and `Fx29` write `I` (R26). -/
theorem doneBy_I (s : State) {i : Instr} (hldI : ∀ nnn, i ≠ .ldI nnn) (haddI : ∀ x, i ≠ .addI x)
    (hldF : ∀ x, i ≠ .ldF x) : (doneBy s i).I = s.I := by
  cases i
  case ldI nnn => exact absurd rfl (hldI nnn)
  case addI x => exact absurd rfl (haddI x)
  case ldF x => exact absurd rfl (hldF x)
  all_goals rfl

/-- Only `Fx15` writes `DT` (R29). -/
theorem doneBy_DT (s : State) {i : Instr} (h : ∀ x, i ≠ .ldDTVx x) : (doneBy s i).DT = s.DT := by
  cases i
  case ldDTVx x => exact absurd rfl (h x)
  all_goals rfl

/-- Only `Fx18` writes `ST` (R30). -/
theorem doneBy_ST (s : State) {i : Instr} (h : ∀ x, i ≠ .ldSTVx x) : (doneBy s i).ST = s.ST := by
  cases i
  case ldSTVx x => exact absurd rfl (h x)
  all_goals rfl

/-- Only `Fx0A` enters a wait (R33, R34). -/
theorem doneBy_wait (s : State) {i : Instr} (h : ∀ x, i ≠ .ldVxK x) :
    (doneBy s i).status = s.status ∧ (doneBy s i).prevKeys = s.prevKeys := by
  cases i
  case ldVxK x => exact absurd rfl (h x)
  all_goals exact ⟨rfl, rfl⟩

/-- No effect changes the parameter `FONT` (R8, R39): a store keeps it. -/
@[simp] theorem doneBy_font (s : State) (i : Instr) : (doneBy s i).mem.font = s.mem.font := by
  cases i
  case ldB | storeRegs => exact Memory.writeBytes_font _ _ _
  all_goals rfl

@[simp] theorem doneBy_loaded (s : State) (i : Instr) : (doneBy s i).loaded = s.loaded := by
  cases i <;> rfl

/-- No effect changes the arguments of the step or the environment's queue. -/
theorem doneBy_io (s : State) (i : Instr) :
    (doneBy s i).io.keys = s.io.keys ∧ (doneBy s i).io.rnd = s.io.rnd ∧
      (doneBy s i).io.events = s.io.events ∧ (doneBy s i).io.drawn = s.io.drawn := by
  cases i <;> exact ⟨rfl, rfl, rfl, rfl⟩

/-- Settles O46: a fault changes the record only and comes from the forms that can fault; an effect changes what its form
names. -/
theorem eachPieceOfStateHasOnlyItsWriters : Obligations.EachPieceOfStateHasOnlyItsWriters := by
  intro i s t ht
  obtain ⟨c, n, hcn, rfl⟩ | ⟨-, rfl⟩ := exec_cases ht
  · have hcan : canFault i = true := by
      by_contra hno
      rw [faultOf_eq_none_of_canFault (Bool.eq_false_iff.mpr hno)] at hcn
      cases hcn
    refine ⟨fun _ _ => rfl, fun _ => .inr ⟨_, hcan, rfl, rfl, rfl⟩, fun hno => ?_, ?_⟩
    · rw [hcan] at hno
      cases hno
    · simp
  · obtain ⟨hkeys, hrnd, hevents, hdrawn⟩ := doneBy_io s i
    refine ⟨fun _ => doneBy_reg s, fun h => .inl (doneBy_pc s h), fun _ => doneBy_fault s i, doneBy_display s, ?mem,
      doneBy_stack s, ?sp, doneBy_I s, doneBy_DT s, doneBy_ST s, doneBy_wait s, doneBy_font s i, doneBy_loaded s i,
      hkeys, hrnd, hevents, hdrawn⟩
    case mem => intro hldB hstore a; rw [doneBy_mem s hldB hstore]
    case sp => intro hcall hret; rw [State.sp, State.sp, doneBy_depth s hcall hret]

/-! ## Readers of the step's arguments (R47, R163)

An instruction commutes with a change `f` of the ports that leaves alone what it reads of them. -/

/-- `s` with its ports changed by `f`. -/
def onIo (f : Io → Io) (s : State) : State := { s with io := f s.io }

/-- No fault depends on the ports. -/
theorem faultOf_onIo (f : Io → Io) (s : State) (i : Instr) : faultOf (onIo f s) i = faultOf s i := by
  cases i <;> rfl

theorem display_onIo {f : Io → Io} (hredraw : ∀ io, f { io with redraw := true } = { f io with redraw := true })
    (s : State) (fb : Framebuffer) : (onIo f s).display fb = onIo f (s.display fb) := by
  simp only [onIo, State.display, hredraw]

theorem keyHeld_onIo {f : Io → Io} {s : State} (h : (f s.io).keys = s.io.keys) (k : Byte) :
    (onIo f s).keyHeld k = s.keyHeld k := by
  simp only [State.keyHeld, onIo, h]

/-- The random byte is read by `Cxnn` only, the keys by `Ex9E`, `ExA1` and `Fx0A` only. -/
theorem doneBy_onIo {f : Io → Io} (hredraw : ∀ io, f { io with redraw := true } = { f io with redraw := true })
    {i : Instr} (s : State) (hrnd : (f s.io).rnd = s.io.rnd ∨ ∀ x nn, i ≠ .rnd x nn)
    (hkeys : (f s.io).keys = s.io.keys ∨ (∀ x, i ≠ .skp x) ∧ (∀ x, i ≠ .sknp x) ∧ ∀ x, i ≠ .ldVxK x) :
    doneBy (onIo f s) i = onIo f (doneBy s i) := by
  cases i
  case rnd x nn =>
    have h : (f s.io).rnd = s.io.rnd := hrnd.resolve_right fun hne => hne x nn rfl
    change ((onIo f s).setReg x ((f s.io).rnd &&& nn)).advance = _
    rw [h]
    rfl
  case skp x =>
    have h : (f s.io).keys = s.io.keys := hkeys.resolve_right fun ⟨hne, _, _⟩ => hne x rfl
    simp only [doneBy, keyHeld_onIo h]
    rfl
  case sknp x =>
    have h : (f s.io).keys = s.io.keys := hkeys.resolve_right fun ⟨_, hne, _⟩ => hne x rfl
    simp only [doneBy, keyHeld_onIo h]
    rfl
  case ldVxK x =>
    have h : (f s.io).keys = s.io.keys := hkeys.resolve_right fun ⟨_, _, hne⟩ => hne x rfl
    simp only [doneBy, onIo, h]
  case cls | drw =>
    simp only [doneBy, State.draw, display_onIo hredraw]
    rfl
  all_goals rfl

theorem exec_onIo {f : Io → Io} (hredraw : ∀ io, f { io with redraw := true } = { f io with redraw := true })
    {i : Instr} (s : State) (hrnd : (f s.io).rnd = s.io.rnd ∨ ∀ x nn, i ≠ .rnd x nn)
    (hkeys : (f s.io).keys = s.io.keys ∨ (∀ x, i ≠ .skp x) ∧ (∀ x, i ≠ .sknp x) ∧ ∀ x, i ≠ .ldVxK x) :
    exec i (onIo f s) = mapNext (onIo f) (exec i s) := by
  cases hf : faultOf s i with
  | none =>
    rw [exec_of_none hf, exec_of_none ((faultOf_onIo f s i).trans hf), doneBy_onIo hredraw s hrnd hkeys]
    rfl
  | some c =>
    rw [exec_of_some hf, exec_of_some ((faultOf_onIo f s i).trans hf)]
    rfl

/-- Settles O47: a change of the random byte, and one of the keys, is a change of the ports that leaves the other alone. -/
theorem onlyTheirReadersSeeTheStepArguments : Obligations.OnlyTheirReadersSeeTheStepArguments := by
  intro i s keys rnd
  constructor
  · intro hrnd
    exact exec_onIo (f := fun io => { io with rnd := rnd }) (fun _ => rfl) s (.inr hrnd) (.inl rfl)
  · intro hskp hsknp hldVxK
    exact exec_onIo (f := fun io => { io with keys := keys }) (fun _ => rfl) s (.inl rfl) (.inr ⟨hskp, hsknp, hldVxK⟩)

end Sys2Proof.Certificates
end

section
/-! Rules over all events: what every event keeps (R6, R90), the invariant of the machine, the parameter `FONT`, and the
sound timer, which no event shows to the program (R30). -/

namespace Sys2Proof.Certificates

open Sys2Proof.Machine

/-! ## The ways a step can go

A step is one event on the state with another queue; a `step(keys, rnd)` event is one cycle between two changes of the
ports. So a predicate that does not speak of the ports is kept by every step when a load, a tick and a cycle keep it. -/

theorem runStep_next {s t : State} {keys : Word} {rnd : Byte} (h : s.runStep keys rnd = .next t) :
    ∃ u, (s.latch keys rnd).runCycle = .next u ∧ t = u.report := by
  unfold State.runStep at h
  cases hu : (s.latch keys rnd).runCycle <;> rw [hu] at h <;> cases h
  case next u => exact ⟨u, rfl, rfl⟩

/-- An event that goes on is a load, or comes to a loaded machine. -/
theorem runEvent_next {s t : State} {e : Event} (h : s.runEvent e = .next t) :
    (∃ rom, s.load rom = .next t) ∨ t = s.tick ∨ ∃ keys rnd, s.runStep keys rnd = .next t := by
  cases e with
  | load rom => exact .inl ⟨rom, h⟩
  | timerTick =>
    simp only [State.runEvent] at h
    split at h <;> cases h
    exact .inr (.inl rfl)
  | step keys rnd =>
    simp only [State.runEvent] at h
    split at h
    case isTrue => exact .inr (.inr ⟨keys, rnd, h⟩)
    case isFalse => cases h

/-- A predicate that every change of the ports, every load, every tick and every cycle keeps is kept by every step. -/
theorem step_keeps {P : State → Prop} (ports : ∀ s f, P s → P (onIo f s))
    (load : ∀ s rom t, P s → s.load rom = .next t → P t) (tick : ∀ s, P s → P s.tick)
    (cycle : ∀ s t, P s → s.runCycle = .next t → P t) {s t : State} (hs : P s) (ht : step s = .next t) : P t := by
  obtain ⟨e, io, -, -, -, -, he⟩ := step_eq_runEvent s
  rw [he] at ht
  have hio : P { s with io := io } := ports s (fun _ => io) hs
  obtain ⟨rom, hl⟩ | rfl | ⟨keys, rnd, hr⟩ := runEvent_next ht
  · exact load _ rom t hio hl
  · exact tick _ hio
  · obtain ⟨u, hu, rfl⟩ := runStep_next hr
    have hlatch := ports _ (fun io => { io with keys := keys, rnd := rnd, redraw := false }) hio
    exact ports u (fun io => { io with soundActive := u.soundActive }) (cycle _ u hlatch hu)

/-- What a cycle can do: nothing while a fault is recorded, a poll while waiting, else the instruction at `pc` (R90, R244):
a fetch fault, a decode error, or an execution. -/
theorem runCycle_cases {s t : State} (h : s.runCycle = .next t) :
    (s.fault ≠ none ∧ t = s) ∨
    (s.fault = none ∧ ∃ x, s.status = .awaitingKey x ∧ t = s.poll x) ∨
    (s.fault = none ∧ s.status = .running ∧ 0xFFE < s.pc.toNat ∧ t = s.raise .fetchOutOfBounds 0 s.pc.toNat) ∨
    (s.fault = none ∧ s.status = .running ∧ s.pc.toNat ≤ 0xFFE ∧
      (t = s.raise .decodeError s.fetchWord s.fetchWord.toNat ∨ ∃ i, exec i s = .next t)) := by
  cases hf : s.fault with
  | some f =>
    rw [State.runCycle_of_fault hf] at h
    cases h
    exact .inl ⟨Option.some_ne_none f, rfl⟩
  | none =>
    cases hs : s.status with
    | awaitingKey x =>
      rw [State.runCycle_of_waiting hf hs] at h
      cases h
      exact .inr (.inl ⟨rfl, x, rfl, rfl⟩)
    | running =>
      rw [State.runCycle_of_running hf hs] at h
      rcases Nat.lt_or_ge 0xFFE s.pc.toNat with hpc | hpc
      · rw [State.runInstruction_of_outside hpc] at h
        cases h
        exact .inr (.inr (.inl ⟨rfl, rfl, hpc, rfl⟩))
      · refine .inr (.inr (.inr ⟨rfl, rfl, hpc, ?_⟩))
        cases hd : decode s.fetchBytes with
        | ok p => exact .inr ⟨p.1, (State.runInstruction_of_ok hpc hd).symm.trans h⟩
        | error r =>
          rw [State.runInstruction_of_illegal hpc hd] at h
          cases h
          exact .inl rfl

/-- What a poll can do (R203): record the snapshot, or also write a key to `V[x]` and end the wait. -/
theorem poll_cases (s : State) (x : RegIdx) :
    s.poll x = { s with prevKeys := s.io.keys } ∨
    ∃ k : RegIdx, s.poll x = { s with
      V := s.V.set x.val (BitVec.ofNat 8 k.val), pc := s.pc + 2, status := .running, prevKeys := s.io.keys } := by
  cases h : firstKey (s.io.keys &&& ~~~s.prevKeys) with
  | none => exact .inl (State.poll_of_none x h)
  | some k => exact .inr ⟨k, State.poll_of_some x h⟩

/-- What a tick does: nothing while a fault is recorded, else both timers count down (R221). -/
theorem tick_cases (s : State) : s.tick = s ∨ s.tick = { s with DT := countDown s.DT, ST := countDown s.ST } := by
  unfold State.tick
  split
  · exact .inl rfl
  · exact .inr rfl

/-- A load that goes on gives the reset state with the ROM image in memory (R280). -/
theorem load_next {s t : State} {rom : List Byte} (h : s.load rom = .next t) :
    rom.length ≤ 3584 ∧ t = { State.reset with
      mem := Memory.ofRom s.mem.font rom, io := { s.io with redraw := false, soundActive := false } } := by
  unfold State.load at h
  split at h <;> cases h
  case isFalse hlen => exact ⟨Nat.not_lt.mp hlen, rfl⟩

/-! ## The parameter `FONT` -/

theorem runCycle_font {s t : State} (h : s.runCycle = .next t) : t.mem.font = s.mem.font := by
  obtain ⟨-, rfl⟩ | ⟨-, x, -, rfl⟩ | ⟨-, -, -, rfl⟩ | ⟨-, -, -, rfl | ⟨i, hi⟩⟩ := runCycle_cases h
  · rfl
  · obtain hp | ⟨k, hp⟩ := poll_cases s x <;> rw [hp]
  · rfl
  · rfl
  · obtain ⟨c, n, -, rfl⟩ | ⟨-, rfl⟩ := exec_cases hi
    · rfl
    · exact doneBy_font s i

/-- Settles O57: a load copies the parameter to memory, and stores keep it. -/
theorem noEventChangesTheFontParameter : Obligations.NoEventChangesTheFontParameter := by
  intro s t ht
  refine step_keeps (P := fun u => u.mem.font = s.mem.font) (fun _ _ hu => hu) ?load ?tick ?cycle rfl ht
  case load =>
    intro u rom v hu hv
    obtain ⟨-, rfl⟩ := load_next hv
    exact (Memory.ofRom_font _ rom).trans hu
  case tick =>
    intro u hu
    obtain h | h := tick_cases u <;> rw [h] <;> exact hu
  case cycle => exact fun u v hu hv => (runCycle_font hv).trans hu

/-! ## The invariant -/

/-- The invariant of a machine that runs without a fault. -/
theorem inv_of_running {s : State} (hmem : s.mem.wf = true) (hpc : s.pc.toNat ≤ 0x10FE)
    (hstack : ∀ k : Fin 16, k.val < s.depth.val → (s.stack[k.val]).toNat ≤ 0x1000) (hstatus : s.status = .running)
    (hfault : s.fault = none) : s.Inv := by
  refine ⟨hmem, hpc, hstack, fun t ht => ?_, fun f hf => ?_⟩
  · rw [hstatus] at ht
    cases ht
  · rw [hfault] at hf
    cases hf

/-- The reset state with a ROM image meets the invariant, whatever its ports are. -/
theorem inv_reset_with {m : Memory} (hm : m.wf = true) (io : Io) : ({ State.reset with mem := m, io := io } : State).Inv :=
  inv_of_running hm (show (0x0200 : Word).toNat ≤ 0x10FE by decide) (fun k hk => absurd hk (Nat.not_lt_zero k.val)) rfl rfl

/-- Settles O55: the reset memory lists nothing and the reset stack is empty. -/
theorem resetSatisfiesTheInvariant : Obligations.ResetSatisfiesTheInvariant :=
  inv_reset_with (Memory.wf_empty _) Io.reset

/-- Taking a fault keeps the invariant when the cause is the fetch exactly where nothing can be fetched (R234, R241). -/
theorem inv_raise {s : State} (hs : s.Inv) (hstatus : s.status = .running) {c : FaultCause} {op : Word} {n : Nat}
    (hc : c = .fetchOutOfBounds ↔ 0xFFE < s.pc.toNat) : (s.raise c op n).Inv := by
  refine ⟨hs.mem, hs.pc, hs.stack, fun t ht => ?_, fun f hf => ?_⟩
  · rw [State.raise_status, hstatus] at ht
    cases ht
  · cases hf
    exact ⟨rfl, hc⟩

/-- `pc` after the advance over an instruction in memory. -/
theorem toNat_add_of_le {pc : Word} (h : pc.toNat ≤ 0xFFE) {k : Nat} (hk : k ≤ 4) :
    (pc + BitVec.ofNat 16 k).toNat = pc.toNat + k := by
  rw [BitVec.toNat_add, BitVec.toNat_ofNat]
  omega

/-- `zext16` of a narrow value keeps its number. -/
theorem zext16_toNat {w : Nat} (hw : w ≤ 16) (v : BitVec w) : (zext16 v).toNat = v.toNat :=
  BitVec.toNat_setWidth_of_le hw

/-- No instruction leaves `pc` above the greatest sum of `Bnnn` (R25, R137). -/
theorem doneBy_pc_le {s : State} (hs : s.Inv) (hpc : s.pc.toNat ≤ 0xFFE) {i : Instr} (hi : faultOf s i = none) :
    (doneBy s i).pc.toNat ≤ 0x10FE := by
  have h2 : (s.pc + 2).toNat = s.pc.toNat + 2 := toNat_add_of_le hpc (by decide)
  have h4 : (s.pc + 4).toNat = s.pc.toNat + 4 := toNat_add_of_le hpc (by decide)
  cases i
  case ret =>
    have hd : s.depth.val ≠ 0 := fun h0 => by simp [faultOf, h0] at hi
    have := hs.stack ⟨s.depth.val - 1, by omega⟩ (Nat.sub_one_lt hd)
    exact this.trans (by decide)
  case jp nnn | call nnn =>
    have := nnn.isLt
    change (zext16 nnn).toNat ≤ _
    rw [zext16_toNat (by decide)]
    omega
  case jpV0 nnn =>
    have h0 := (s.reg 0).isLt
    have hn := nnn.isLt
    change (zext16 (s.reg 0) + zext16 nnn).toNat ≤ _
    rw [BitVec.toNat_add, zext16_toNat (by decide), zext16_toNat (by decide)]
    omega
  case seImm | sneImm | seReg | sneReg | skp | sknp =>
    simp only [doneBy, State.advanceSkipIf_pc]
    split <;> omega
  case ldVxK => exact hs.pc
  all_goals
    rw [doneBy_pc s rfl, h2]
    omega

/-- Every stack entry in use is at most 0x1000 after an instruction: a call pushes the address after itself (R132). -/
theorem doneBy_stack_le {s : State} (hs : s.Inv) (hpc : s.pc.toNat ≤ 0xFFE) (i : Instr) (k : Fin 16)
    (hk : k.val < (doneBy s i).depth.val) : ((doneBy s i).stack[k.val]).toNat ≤ 0x1000 := by
  cases i
  case call nnn =>
    have hnext : s.nextPc.toNat = s.pc.toNat + 2 := toNat_add_of_le hpc (by decide)
    have hk' : k.val < min (s.depth.val + 1) 16 := hk
    simp only [doneBy, Vector.getElem_setIfInBounds]
    split
    · omega
    · exact hs.stack k (by omega)
  case ret =>
    have hk' : k.val < s.depth.val - 1 := hk
    exact hs.stack k (by omega)
  all_goals exact hs.stack k hk

/-- Memory stays canonical: a store that takes no fault is inside memory (R61, R71). -/
theorem doneBy_mem_wf {s : State} (hs : s.mem.wf = true) {i : Instr} (hi : faultOf s i = none) :
    (doneBy s i).mem.wf = true := by
  cases i
  case ldB x =>
    have ha : ¬ 0xFFF < s.dataAddr 2 := by simpa [faultOf] using hi
    exact Memory.writeBytes_wf hs (by simp only [State.dataAddr, bcdDigits_length] at ha ⊢; omega)
  case storeRegs x =>
    have ha : ¬ 0xFFF < s.dataAddr x.val := by simpa [faultOf] using hi
    exact Memory.writeBytes_wf hs (by simp only [State.dataAddr, State.regsUpTo_length] at ha ⊢; omega)
  all_goals exact hs

/-- An instruction that begins a wait stays where it is (R202). -/
theorem doneBy_pc_of_waiting {s : State} (hs : s.status = .running) {i : Instr} {x : RegIdx}
    (hx : (doneBy s i).status = .awaitingKey x) : (doneBy s i).pc = s.pc := by
  by_cases h : ∃ y, i = .ldVxK y
  · obtain ⟨y, rfl⟩ := h
    rfl
  · obtain ⟨hst, -⟩ := doneBy_wait s (not_exists.mp h)
    rw [hst, hs] at hx
    cases hx

theorem exec_keeps_inv {s t : State} (hs : s.Inv) (hfault : s.fault = none) (hstatus : s.status = .running)
    (hpc : s.pc.toNat ≤ 0xFFE) {i : Instr} (ht : exec i s = .next t) : t.Inv := by
  obtain ⟨c, n, hcn, rfl⟩ | ⟨hnone, rfl⟩ := exec_cases ht
  · refine inv_raise hs hstatus ⟨fun hc => ?_, fun h => absurd h (Nat.not_lt.mpr hpc)⟩
    subst hc
    exact absurd (faultOf_eq_some hcn) id
  · refine ⟨doneBy_mem_wf hs.mem hnone, doneBy_pc_le hs hpc hnone, doneBy_stack_le hs hpc i, fun x hx => ?_,
      fun f hf => ?_⟩
    · rw [doneBy_pc_of_waiting hstatus hx, doneBy_fault]
      exact ⟨hpc, hfault⟩
    · rw [doneBy_fault, hfault] at hf
      cases hf

theorem poll_keeps_inv {s : State} (hs : s.Inv) {x : RegIdx} (hx : s.status = .awaitingKey x) : (s.poll x).Inv := by
  obtain ⟨hpc, hfault⟩ := hs.waiting x hx
  obtain hp | ⟨k, hp⟩ := poll_cases s x <;> rw [hp]
  · exact ⟨hs.mem, hs.pc, hs.stack, hs.waiting, hs.aborted⟩
  · refine inv_of_running hs.mem ?_ hs.stack rfl hfault
    have h2 : (s.pc + 2).toNat = s.pc.toNat + 2 := toNat_add_of_le hpc (by decide)
    change (s.pc + 2).toNat ≤ _
    omega

theorem runCycle_keeps_inv {s t : State} (hs : s.Inv) (ht : s.runCycle = .next t) : t.Inv := by
  obtain ⟨-, rfl⟩ | ⟨-, x, hx, rfl⟩ | ⟨-, hst, hpc, rfl⟩ | ⟨hf, hst, hpc, rfl | ⟨i, hi⟩⟩ :=
    runCycle_cases ht
  · exact hs
  · exact poll_keeps_inv hs hx
  · exact inv_raise hs hst ⟨fun _ => hpc, fun _ => rfl⟩
  · exact inv_raise hs hst ⟨nofun, fun h => absurd h (Nat.not_lt.mpr hpc)⟩
  · exact exec_keeps_inv hs hf hst hpc hi

/-- Settles O56: a load establishes the invariant, a tick changes only timers, a cycle keeps it in each of its cases. -/
theorem stepKeepsTheInvariant : Obligations.StepKeepsTheInvariant := by
  intro s t hs ht
  refine step_keeps (P := State.Inv) ?ports ?load ?tick (fun _ _ => runCycle_keeps_inv) hs ht
  case ports => exact fun _ _ h => ⟨h.mem, h.pc, h.stack, h.waiting, h.aborted⟩
  case load =>
    intro u rom v _ hv
    obtain ⟨hlen, rfl⟩ := load_next hv
    exact inv_reset_with (Memory.ofRom_wf _ hlen) _
  case tick =>
    intro u h
    obtain hu | hu := tick_cases u <;> rw [hu]
    · exact h
    · exact ⟨h.mem, h.pc, h.stack, h.waiting, h.aborted⟩

/-! ## The sound timer

An operation is blind to the sound timer when hiding it before makes no difference that is seen with it hidden after. -/

/-- Hiding the sound before `f` changes nothing but the sound. -/
def SoundBlind (f : State → Host.Outcome State Fault Refusal) : Prop :=
  ∀ s, mapNext hideSound (f (hideSound s)) = mapNext hideSound (f s)

theorem faultOf_hideSound (s : State) (i : Instr) : faultOf (hideSound s) i = faultOf s i := by
  cases i <;> rfl

theorem hideSound_doneBy (s : State) (i : Instr) : hideSound (doneBy (hideSound s) i) = hideSound (doneBy s i) := by
  cases i <;> rfl

theorem exec_soundBlind (i : Instr) : SoundBlind (exec i) := by
  intro s
  cases hf : faultOf s i with
  | none =>
    rw [exec_of_none hf, exec_of_none ((faultOf_hideSound s i).trans hf)]
    exact congrArg Host.Outcome.next (hideSound_doneBy s i)
  | some c =>
    rw [exec_of_some hf, exec_of_some ((faultOf_hideSound s i).trans hf)]
    rfl

theorem runInstruction_soundBlind : SoundBlind State.runInstruction := by
  intro s
  have hcan : (hideSound s).canFetch = s.canFetch := rfl
  have hbytes : (hideSound s).fetchBytes = s.fetchBytes := rfl
  unfold State.runInstruction
  rw [hcan, hbytes]
  split
  · split
    · exact exec_soundBlind _ s
    · rfl
  · rfl

theorem poll_soundBlind (x : RegIdx) : SoundBlind fun s => .next (s.poll x) := by
  intro s
  beta_reduce
  cases h : firstKey (s.io.keys &&& ~~~s.prevKeys) with
  | none => rw [State.poll_of_none x h, State.poll_of_none (s := hideSound s) x h]; rfl
  | some k => rw [State.poll_of_some x h, State.poll_of_some (s := hideSound s) x h]; rfl

theorem runCycle_soundBlind : SoundBlind State.runCycle := by
  intro s
  cases hf : s.fault with
  | some f => rw [State.runCycle_of_fault hf, State.runCycle_of_fault (s := hideSound s) hf]; rfl
  | none =>
    cases hs : s.status with
    | awaitingKey x =>
      rw [State.runCycle_of_waiting hf hs, State.runCycle_of_waiting (s := hideSound s) hf hs]
      exact poll_soundBlind x s
    | running =>
      rw [State.runCycle_of_running hf hs, State.runCycle_of_running (s := hideSound s) hf hs]
      exact runInstruction_soundBlind s

/-- Reading the sound output changes the sound only (R46). -/
theorem mapNext_hideSound_reported (o : Host.Outcome State Fault Refusal) :
    mapNext hideSound (reported o) = mapNext hideSound o := by
  cases o <;> rfl

theorem runStep_soundBlind (keys : Word) (rnd : Byte) : SoundBlind fun s => s.runStep keys rnd := by
  intro s
  simp only [State.runStep, mapNext_hideSound_reported]
  exact runCycle_soundBlind (s.latch keys rnd)

theorem tick_soundBlind : SoundBlind fun s => .next s.tick := by
  intro s
  cases hf : s.fault <;> simp [State.tick, hideSound, hf, mapNext]

theorem runEvent_soundBlind (e : Event) : SoundBlind fun s => s.runEvent e := by
  intro s
  cases e with
  | load rom =>
    simp only [State.runEvent, State.load]
    split <;> rfl
  | timerTick =>
    have hl : (hideSound s).loaded = s.loaded := rfl
    simp only [State.runEvent, hl]
    split
    · exact tick_soundBlind s
    · rfl
  | step keys rnd =>
    have hl : (hideSound s).loaded = s.loaded := rfl
    simp only [State.runEvent, hl]
    split
    · exact runStep_soundBlind keys rnd s
    · rfl

theorem step_soundBlind : SoundBlind step := by
  intro s
  cases h : s.io.events with
  | nil =>
    rw [step_of_empty h, step_of_empty (s := hideSound s) h]
    exact runEvent_soundBlind _ { s with io := { s.io with drawn := s.io.drawn + 1 } }
  | cons e rest =>
    rw [step_of_queued h, step_of_queued (s := hideSound s) h]
    exact runEvent_soundBlind e { s with io := { s.io with events := rest } }

/-- Settles O48: a step is blind to the sound timer, so it answers the same on two states that agree with it hidden. -/
theorem soundTimerIsInvisibleToTheProgram : Obligations.SoundTimerIsInvisibleToTheProgram := by
  intro s s' h
  rw [← step_soundBlind s, ← step_soundBlind s', h]

end Sys2Proof.Certificates
end

section
/-! The display (40_display.md, R120 to R123): the clear, the sprite that `Dxyn` draws, and a draw done twice. -/

namespace Sys2Proof.Certificates

open Sys2Proof.Machine

/-! ## The clear -/

/-- A clear changes the display and `pc` only (R120). -/
theorem frame_display_advance (s : State) (fb : Framebuffer) : Frame [] [.FB, .redraw] [] s (s.display fb).advance := by
  constructor
  case FB | redraw => exact fun h => absurd (by simp) h
  all_goals simp

/-- Settles O5: the framebuffer written is 0, whose every pixel is off. -/
theorem clsTurnsEveryPixelOff : Obligations.ClsTurnsEveryPixelOff :=
  ⟨decodeWord_encode .cls, fun s => ⟨_, exec_of_none (i := .cls) rfl, fun r c _ _ => Framebuffer.pixel_zero r c,
    rfl, rfl, frame_display_advance s 0⟩⟩

/-! ## The draw -/

theorem faultOf_drw_of_inMemory {s : State} {y : RegIdx} {n : Fin 16} (h : SpriteInMemory s y n) (x : RegIdx) :
    faultOf s (.drw x y n) = none := by
  refine if_neg fun ⟨hpos, ha⟩ => ?_
  obtain h0 | hle := h
  · omega
  · exact absurd ha (Nat.not_lt.mpr hle)

theorem faultOf_drw_of_not_inMemory {s : State} {y : RegIdx} {n : Fin 16} (h : ¬ SpriteInMemory s y n) (x : RegIdx) :
    faultOf s (.drw x y n) = some (.dataOutOfBounds, s.I.toNat + (rowsDrawn s y n - 1)) := by
  obtain ⟨hpos, ha⟩ := not_or.mp h
  exact if_pos ⟨Nat.pos_of_ne_zero hpos, Nat.not_le.mp ha⟩

/-- On the screen the rows drawn are all the rows of the sprite, so the bits drawn are those of the sprite (R121). -/
theorem spriteBitAt_rowsDrawn (s : State) (x y : RegIdx) (n : Fin 16) {r : Nat} (c : Nat) (hr : r < 32) :
    spriteBitAt s.mem s.I.toNat (s.originCol x) (s.originRow y) (rowsDrawn s y n) r c = spriteOver s x y n r c := by
  have hrow : r < s.originRow y + rowsDrawn s y n ↔ r < s.originRow y + n.val := by
    simp only [rowsDrawn, State.originRow]
    omega
  rw [Bool.eq_iff_iff]
  simp only [spriteBitAt, rowBit, spriteBit, spriteOver, Bool.and_eq_true, decide_eq_true_eq, hrow, and_assoc]
  rfl

/-- A flag byte is 1 or 0 as its condition holds or not (R23). -/
theorem flagIs_flagByte {b : Bool} {p : Prop} (h : b = true ↔ p) : FlagIs (flagByte b) p := by
  cases b
  case true => exact ⟨fun _ => rfl, fun hp => absurd (h.mp rfl) hp⟩
  case false => exact ⟨fun hp => absurd (h.mpr hp) Bool.false_ne_true, fun _ => rfl⟩

/-- A draw changes VF, the display and `pc` only (R121). -/
theorem frame_draw (s : State) (x y : RegIdx) (rows : Nat) : Frame [15] [.FB, .redraw] [] s (s.draw x y rows) := by
  constructor
  case reg =>
    intro r hr
    have hne : r ≠ vf := List.ne_of_not_mem_cons hr
    simp [State.draw, hne]
  case FB | redraw => exact fun h => absurd (by simp) h
  all_goals simp [State.draw]

/-- VF after a draw is the collision of the sprite with the pixels before it (R121). -/
theorem flagIs_draw (s : State) (x y : RegIdx) (n : Fin 16) :
    FlagIs ((s.draw x y (rowsDrawn s y n)).reg 15)
      (∃ r c, r < 32 ∧ c < 64 ∧ s.FB.pixel r c = true ∧ spriteOver s x y n r c = true) := by
  have hrows : s.originRow y + rowsDrawn s y n ≤ 32 := by
    simp only [State.originRow, rowsDrawn]
    omega
  obtain ⟨b, hb, hiff⟩ := State.draw_VF s x y hrows
  rw [hb]
  refine flagIs_flagByte (hiff.trans ?_)
  refine exists_congr fun r => exists_congr fun c => and_congr_right fun hr => ?_
  rw [spriteBitAt_rowsDrawn s x y n c hr]

/-- Settles O6: the test of `Dxyn` is `SpriteInMemory`, and a draw XORs the bits of the rows drawn, which are the
sprite's. -/
theorem drwXorsTheVisibleSpriteAndReportsCollision : Obligations.DrwXorsTheVisibleSpriteAndReportsCollision := by
  intro x y n
  refine ⟨decodeWord_encode (.drw x y n), fun s => ⟨fun hmem => ?drawn, fun hmem => ?fault⟩⟩
  case drawn =>
    refine ⟨_, exec_of_none (faultOf_drw_of_inMemory hmem x), fun r c hr hc => ?pixel, flagIs_draw s x y n, rfl, rfl,
      frame_draw s x y _⟩
    case pixel => rw [doneBy, State.draw_FB_pixel s x y _ hr hc, spriteBitAt_rowsDrawn s x y n c hr]
  case fault => exact ⟨_, exec_of_some (faultOf_drw_of_not_inMemory hmem x), rfl⟩

/-! ## The draw done twice -/

/-- The sprite of `Dxyn` depends on `I`, memory and the coordinate registers only (R121). -/
theorem spriteOver_congr {s t : State} {x y : RegIdx} (hI : t.I = s.I) (hmem : ∀ a, t.mem.read a = s.mem.read a)
    (hx : t.reg x = s.reg x) (hy : t.reg y = s.reg y) (n : Fin 16) (r c : Nat) :
    spriteOver t x y n r c = spriteOver s x y n r c := by
  simp only [spriteOver, hI, hmem, hx, hy]

theorem spriteInMemory_congr {s t : State} {y : RegIdx} (hI : t.I = s.I) (hy : t.reg y = s.reg y) (n : Fin 16) :
    SpriteInMemory t y n ↔ SpriteInMemory s y n := by
  simp only [SpriteInMemory, rowsDrawn, hI, hy]

/-- Settles O7: both draws XOR the same bits, and a pixel under a 1 bit is on between them exactly when it was off before. -/
theorem drawingTwiceRestoresTheFramebuffer : Obligations.DrawingTwiceRestoresTheFramebuffer := by
  intro x y n s hmem
  obtain ⟨-, hdraw⟩ := drwXorsTheVisibleSpriteAndReportsCollision x y n
  obtain ⟨t, ht, hpixel, -, -, -, hframe⟩ := (hdraw s).1 hmem
  refine ⟨t, ht, fun hx hy => ?_⟩
  have hI : t.I = s.I := hframe.I (by decide)
  have hread : ∀ a, t.mem.read a = s.mem.read a := fun a => hframe.mem a List.not_mem_nil
  have hover := spriteOver_congr hI hread hx hy n
  obtain ⟨u, hu, hpixel', hflag, -⟩ := (hdraw t).1 ((spriteInMemory_congr hI hy n).mpr hmem)
  have hbetween : ∀ r c, r < 32 → c < 64 → spriteOver s x y n r c = true →
      t.FB.pixel r c = !s.FB.pixel r c := by
    intro r c hr hc h1
    rw [hpixel r c hr hc, h1, Bool.xor_true]
  refine ⟨u, hu, fun r c hr hc => ?pixels, ?flag⟩
  case pixels =>
    rw [hpixel' r c hr hc, hpixel r c hr hc, hover, Bool.xor_assoc, Bool.xor_self, Bool.xor_false]
  case flag =>
    have hiff : (∃ r c, r < 32 ∧ c < 64 ∧ t.FB.pixel r c = true ∧ spriteOver t x y n r c = true) ↔
        ∃ r c, r < 32 ∧ c < 64 ∧ s.FB.pixel r c = false ∧ spriteOver s x y n r c = true := by
      refine exists_congr fun r => exists_congr fun c => and_congr_right fun hr => and_congr_right fun hc => ?_
      rw [hover]
      refine and_congr_left fun h1 => ?_
      rw [hbetween r c hr hc h1, Bool.not_eq_true']
    rwa [hiff] at hflag

end Sys2Proof.Certificates
end

section
/-! Jumps, calls, returns and the skips on registers (41_control_flow.md, R130 to R137). -/

namespace Sys2Proof.Certificates

open Sys2Proof.Machine

/-! ## Jumps -/

/-- A jump changes `pc` only (R131, R137). -/
theorem frame_setPc (s : State) (a : Word) : Frame [] [] [] s (s.setPc a) := by
  constructor <;> simp

/-- Settles O9: the target is `nnn` zero-extended to 16 bits. -/
theorem jpSetsPcToTheAbsoluteTarget : Obligations.JpSetsPcToTheAbsoluteTarget :=
  fun nnn => ⟨decodeWord_encode (.jp nnn), fun s => ⟨_, exec_of_none (i := .jp nnn) rfl, zext16_imm12_toNat nnn,
    frame_setPc s _⟩⟩

/-- Settles O16: the sum of a byte and an address fits in 16 bits. -/
theorem jpV0AddsV0ToTheTarget : Obligations.JpV0AddsV0ToTheTarget := by
  intro nnn
  refine ⟨decodeWord_encode (.jpV0 nnn), fun s => ⟨_, exec_of_none (i := .jpV0 nnn) rfl, ?target, frame_setPc s _⟩⟩
  case target =>
    have h0 := (s.reg 0).isLt
    have hn := nnn.isLt
    rw [doneBy, State.setPc_pc, BitVec.toNat_add, zext16_toNat (by decide), zext16_toNat (by decide)]
    omega

/-! ## Return and call -/

/-- `sp` is one below the number of entries in use (R27). -/
theorem sp_eq_iff {s : State} {k : Nat} : s.sp = (k : Int) ↔ s.depth.val = k + 1 := by
  unfold State.sp
  omega

theorem sp_eq_neg_one_iff {s : State} : s.sp = -1 ↔ s.depth.val = 0 := by
  unfold State.sp
  omega

theorem sp_lt_iff {s : State} : s.sp < 15 ↔ s.depth.val < 16 := by
  unfold State.sp
  omega

theorem faultOf_ret_of_ne {s : State} (h : s.depth.val ≠ 0) : faultOf s .ret = none := if_neg h

theorem faultOf_call_of_lt {s : State} (h : s.depth.val < 16) (nnn : Imm12) : faultOf s (.call nnn) = none :=
  if_neg (Nat.ne_of_lt h)

/-- A return changes `pc` and `sp` only (R130). -/
theorem frame_ret (s : State) : Frame [] [.sp] [] s (doneBy s .ret) := by
  constructor
  case sp => exact fun h => absurd (List.mem_singleton_self _) h
  all_goals intros; rfl

/-- A call changes `pc`, `sp` and one stack cell only (R132). -/
theorem frame_call (s : State) (nnn : Imm12) : Frame [] [.sp, .stack] [] s (doneBy s (.call nnn)) := by
  constructor
  case sp | stack => exact fun h => absurd (by decide) h
  all_goals intros; rfl

/-- A return goes to the top entry (R130). -/
theorem pc_ret {s : State} {k : Fin 16} (h : s.depth.val = k.val + 1) : (doneBy s .ret).pc = s.stack[k.val] := by
  simp only [doneBy, h, Nat.add_sub_cancel]

theorem sp_ret {s : State} (h : s.depth.val ≠ 0) : (doneBy s .ret).sp = s.sp - 1 := by
  simp only [doneBy, State.sp]
  omega

theorem sp_call {s : State} (h : s.depth.val < 16) (nnn : Imm12) : (doneBy s (.call nnn)).sp = s.sp + 1 := by
  simp only [doneBy, State.sp]
  omega

/-- A call writes the cell above the top, and no other (R28, R132). -/
theorem stack_call (s : State) (nnn : Imm12) (k : Fin 16) :
    (doneBy s (.call nnn)).stack[k.val] = if (k.val : Int) = s.sp + 1 then s.pc + 2 else s.stack[k.val] := by
  have hk : (k.val : Int) = s.sp + 1 ↔ s.depth.val = k.val := by
    unfold State.sp
    omega
  simp only [doneBy, Vector.getElem_setIfInBounds, hk, State.nextPc]

/-- Settles O8: the number of entries in use decides between the top entry and the fault. -/
theorem retPopsTheReturnAddress : Obligations.RetPopsTheReturnAddress := by
  refine ⟨decodeWord_encode .ret, fun s => ⟨fun k hk => ?pop, fun hempty => ?fault⟩⟩
  case pop =>
    have hdepth : s.depth.val = k.val + 1 := sp_eq_iff.mp hk
    have hne : s.depth.val ≠ 0 := by omega
    exact ⟨_, exec_of_none (faultOf_ret_of_ne hne), pc_ret hdepth, sp_ret hne, frame_ret s⟩
  case fault => exact ⟨_, exec_of_some (i := .ret) (if_pos (sp_eq_neg_one_iff.mp hempty)), rfl⟩

/-- Settles O10: the cell written is that above the old top, with the address after the call. -/
theorem callPushesTheNextAddressAndJumps : Obligations.CallPushesTheNextAddressAndJumps := by
  intro nnn
  refine ⟨decodeWord_encode (.call nnn), fun s => ⟨fun hlt => ?push, fun hfull => ?fault⟩⟩
  case push =>
    have hdepth : s.depth.val < 16 := sp_lt_iff.mp hlt
    exact ⟨_, exec_of_none (faultOf_call_of_lt hdepth nnn), zext16_imm12_toNat nnn, sp_call hdepth nnn,
      fun k hk => (stack_call s nnn k).trans (if_pos hk), fun k hk => (stack_call s nnn k).trans (if_neg hk),
      frame_call s nnn⟩
  case fault => exact ⟨_, exec_of_some (i := .call nnn) (if_pos (sp_eq_iff.mp hfull)), rfl⟩

/-- Settles O11: the return takes the cell that the call wrote, and leaves it there. -/
theorem returnUndoesCall : Obligations.ReturnUndoesCall := by
  intro nnn s hlt
  have hdepth : s.depth.val < 16 := sp_lt_iff.mp hlt
  have hdepth' : (doneBy s (.call nnn)).depth.val = s.depth.val + 1 :=
    Nat.min_eq_left (Nat.succ_le_of_lt hdepth)
  have hne : (doneBy s (.call nnn)).depth.val ≠ 0 := by omega
  have hsp : (doneBy (doneBy s (.call nnn)) .ret).sp = s.sp := by
    rw [sp_ret hne, sp_call hdepth nnn, add_sub_cancel_right]
  refine ⟨_, _, exec_of_none (faultOf_call_of_lt hdepth nnn), exec_of_none (faultOf_ret_of_ne hne), ?pc, hsp,
    fun k hk => (stack_call s nnn k).trans (if_neg hk), ?frame⟩
  case pc =>
    have htop : ((s.depth.val : Nat) : Int) = s.sp + 1 := (sub_add_cancel _ _).symm
    exact (pc_ret (k := ⟨s.depth.val, hdepth⟩) hdepth').trans
      ((stack_call s nnn ⟨s.depth.val, hdepth⟩).trans (if_pos htop))
  case frame =>
    constructor
    case stack => exact fun h => absurd (List.mem_singleton_self _) h
    case sp => exact fun _ => hsp
    all_goals intros; rfl

/-! ## The skips on registers -/

/-- A skip on registers with another low nibble than 0 is illegal (R100). -/
theorem decodeSkipReg_formatXYN_of_ne {n : Fin 16} (hn : n ≠ 0) (i : Instr) (c : BitVec 4) (x y : RegIdx) :
    decodeSkipReg i (formatXYN c x y (nibble n)) = .error (.skipNibble (formatXYN c x y (nibble n))) := by
  refine if_neg fun h => hn (Fin.ext ?_)
  rw [← nibble_toNat n, ← fieldN_formatXYN c x y (nibble n), h]

/-- Settles O14: the skip condition is the equality of the registers, and the low nibble is tested (D3). -/
theorem seRegSkipsOnEqualRegisters : Obligations.SeRegSkipsOnEqualRegisters := by
  intro x y
  refine ⟨decodeWord_encode (.seReg x y), fun n hn i hi => ?illegal, fun s =>
    ⟨_, exec_of_none (i := .seReg x y) rfl, ?pc, frame_advanceSkipIf s _⟩⟩
  case illegal =>
    change decodeWord (formatXYN 0x5#4 x y (nibble n)) = .ok i at hi
    simp [decodeWord, decodeSkipReg_formatXYN_of_ne hn] at hi
  case pc => simp only [doneBy, State.advanceSkipIf_pc, beq_iff_eq]

/-- Settles O15: the skip condition is the inequality of the registers, and the low nibble is tested (D3). -/
theorem sneRegSkipsOnUnequalRegisters : Obligations.SneRegSkipsOnUnequalRegisters := by
  intro x y
  refine ⟨decodeWord_encode (.sneReg x y), fun n hn i hi => ?illegal, fun s =>
    ⟨_, exec_of_none (i := .sneReg x y) rfl, ?pc, frame_advanceSkipIf s _⟩⟩
  case illegal =>
    change decodeWord (formatXYN 0x9#4 x y (nibble n)) = .ok i at hi
    simp [decodeWord, decodeSkipReg_formatXYN_of_ne hn] at hi
  case pc => simp only [doneBy, State.advanceSkipIf_pc, bne_iff_ne, ne_eq, ite_not]

end Sys2Proof.Certificates
end

section
/-! The operations on registers (42_alu.md, R150 to R163): the logical ones, those that write a flag, and the random byte. -/

namespace Sys2Proof.Certificates

open Sys2Proof.Machine

/-! ## Logical operations and the random byte -/

/-- Settles O20: each operation on bytes is the operation on every bit, and only `V[x]` is written. -/
theorem logicalOperationsWorkBitByBit : Obligations.LogicalOperationsWorkBitByBit := by
  intro x y
  refine ⟨decodeWord_encode (.orReg x y), decodeWord_encode (.andReg x y), decodeWord_encode (.xorReg x y),
    fun s => ⟨?or, ?and, ?xor⟩⟩
  case or =>
    refine ⟨_, exec_of_none (i := .orReg x y) rfl, fun b => ?_, pc_setReg_advance s x _, frame_setReg_advance s x _⟩
    rw [doneBy, reg_setReg_advance, BitVec.getLsbD_or]
  case and =>
    refine ⟨_, exec_of_none (i := .andReg x y) rfl, fun b => ?_, pc_setReg_advance s x _, frame_setReg_advance s x _⟩
    rw [doneBy, reg_setReg_advance, BitVec.getLsbD_and]
  case xor =>
    refine ⟨_, exec_of_none (i := .xorReg x y) rfl, fun b => ?_, pc_setReg_advance s x _, frame_setReg_advance s x _⟩
    rw [doneBy, reg_setReg_advance, BitVec.getLsbD_xor]

/-- Settles O26: the byte written is that of the step's argument, masked. -/
theorem rndMasksTheRandomByte : Obligations.RndMasksTheRandomByte := by
  intro x nn
  refine ⟨decodeWord_encode (.rnd x nn), fun s => ⟨_, exec_of_none (i := .rnd x nn) rfl, fun b => ?_,
    pc_setReg_advance s x _, frame_setReg_advance s x _⟩⟩
  rw [doneBy, reg_setReg_advance, BitVec.getLsbD_and]

/-! ## A result and a flag (R23, R151) -/

/-- Nothing but `V[x]`, VF and `pc` changes. -/
theorem frame_setResultAndFlag_advance (s : State) (x : RegIdx) (v : Byte) (b : Bool) :
    Frame [x, 15] [] [] s (s.setResultAndFlag x v b).advance := by
  constructor
  case reg =>
    intro r hr
    simp only [List.mem_cons, List.not_mem_nil, or_false, not_or] at hr
    obtain ⟨hx, hvf⟩ := hr
    rw [State.reg_advance, State.reg_setResultAndFlag, if_neg hvf, if_neg hx]
  all_goals simp

/-- What a flag-writing form does, for its result `v` and its flag `b`: the flag is written last, so for `x = 15` it
replaces the result (D13). -/
theorem resultAndFlag_spec (s : State) (x : RegIdx) (v : Byte) {b : Bool} {p : Prop} {m : Nat} (hv : v.toNat = m)
    (hb : b = true ↔ p) :
    (x ≠ 15 → ((s.setResultAndFlag x v b).advance.reg x).toNat = m) ∧
    FlagIs ((s.setResultAndFlag x v b).advance.reg 15) p ∧
    (s.setResultAndFlag x v b).advance.pc = s.pc + 2 ∧
    Frame [x, 15] [] [] s (s.setResultAndFlag x v b).advance := by
  refine ⟨fun hx => ?result, ?flag, rfl, frame_setResultAndFlag_advance s x v b⟩
  case result => rw [State.reg_advance, State.reg_setResultAndFlag, if_neg hx, if_pos rfl, hv]
  case flag =>
    rw [State.reg_advance, State.reg_setResultAndFlag, if_pos rfl]
    exact flagIs_flagByte hb

/-- Subtraction modulo 256 (R150). -/
theorem toNat_sub_byte (a b : Byte) : (a - b).toNat = (a.toNat + 256 - b.toNat) % 256 := by
  have hb := b.isLt
  rw [BitVec.toNat_sub]
  omega

theorem shiftedOutRight_iff (a : Byte) : shiftedOutRight a = true ↔ a.toNat % 2 = 1 := by
  simp [shiftedOutRight, BitVec.getLsbD, Nat.testBit_zero]

theorem shiftedOutLeft_iff (a : Byte) : shiftedOutLeft a = true ↔ a.toNat ≥ 128 := by
  have ha := a.isLt
  simp only [shiftedOutLeft, BitVec.getLsbD, Nat.testBit_eq_decide_div_mod_eq, decide_eq_true_eq]
  omega

/-- Settles O21: the carry is the 9-bit sum above 255. -/
theorem addRegSetsVFToTheCarry : Obligations.AddRegSetsVFToTheCarry :=
  fun x y => ⟨decodeWord_encode (.addReg x y), fun s => ⟨_, exec_of_none (i := .addReg x y) rfl,
    resultAndFlag_spec s x _ (BitVec.toNat_add _ _) decide_eq_true_iff⟩⟩

/-- Settles O22: the flag is the strict comparison `V[x] > V[y]`. -/
theorem subRegSetsVFWhenVxIsGreater : Obligations.SubRegSetsVFWhenVxIsGreater :=
  fun x y => ⟨decodeWord_encode (.subReg x y), fun s => ⟨_, exec_of_none (i := .subReg x y) rfl,
    resultAndFlag_spec s x _ (toNat_sub_byte _ _) decide_eq_true_iff⟩⟩

/-- Settles O23: the shift is of `V[x]` in place, and the flag is its bit 0. -/
theorem shrHalvesVxAndKeepsBitZero : Obligations.ShrHalvesVxAndKeepsBitZero :=
  fun x y => ⟨decodeWord_encode (.shr x y), fun s => ⟨_, exec_of_none (i := .shr x y) rfl,
    resultAndFlag_spec s x _ (BitVec.toNat_ushiftRight _ _) (shiftedOutRight_iff _)⟩⟩

/-- Settles O24: the flag is the strict comparison `V[y] > V[x]`. -/
theorem subnRegSetsVFWhenVyIsGreater : Obligations.SubnRegSetsVFWhenVyIsGreater :=
  fun x y => ⟨decodeWord_encode (.subnReg x y), fun s => ⟨_, exec_of_none (i := .subnReg x y) rfl,
    resultAndFlag_spec s x _ (toNat_sub_byte _ _) decide_eq_true_iff⟩⟩

/-- Doubling modulo 256 (R150, R162). -/
theorem toNat_shiftLeft_one (a : Byte) : (a <<< 1).toNat = 2 * a.toNat % 256 := by
  rw [BitVec.toNat_shiftLeft, Nat.shiftLeft_eq, Nat.mul_comm]

/-- Settles O25: the shift is of `V[x]` in place, and the flag is its bit 7. -/
theorem shlDoublesVxAndKeepsBitSeven : Obligations.ShlDoublesVxAndKeepsBitSeven :=
  fun x y => ⟨decodeWord_encode (.shl x y), fun s => ⟨_, exec_of_none (i := .shl x y) rfl,
    resultAndFlag_spec s x _ (toNat_shiftLeft_one _) (shiftedOutLeft_iff _)⟩⟩

end Sys2Proof.Certificates
end

section
/-! The index register and memory (43_index_memory.md, R181 to R185; R74): the sums, the stores and the loads. -/

namespace Sys2Proof.Certificates

open Sys2Proof.Machine

/-! ## Sums in `I` -/

/-- Settles O28: the 16-bit sum is the sum modulo 65536. -/
theorem addIWrapsAtSixteenBits : Obligations.AddIWrapsAtSixteenBits := by
  intro x
  refine ⟨decodeWord_encode (.addI x), fun s => ⟨_, exec_of_none (i := .addI x) rfl, ?sum, pc_setI_advance s _,
    frame_setI_advance s _⟩⟩
  case sum => rw [doneBy, I_setI_advance, BitVec.toNat_add, zext16_toNat (by decide)]

/-- Settles O29: five times a byte fits in 16 bits. -/
theorem ldFPointsAtFiveTimesVx : Obligations.LdFPointsAtFiveTimesVx := by
  intro x
  refine ⟨decodeWord_encode (.ldF x), fun s => ⟨_, exec_of_none (i := .ldF x) rfl, ?product, pc_setI_advance s _,
    frame_setI_advance s _⟩⟩
  case product =>
    have hx := (s.reg x).isLt
    have h5 : (5 : Word).toNat = 5 := rfl
    rw [doneBy, I_setI_advance, BitVec.toNat_mul, zext16_toNat (by decide), h5]
    omega

/-! ## Stores -/

/-- What a store of bytes at `I` onward leaves unchanged (R183, R184). -/
theorem frame_store (s : State) (vs : List Byte) :
    Frame [] [] ((List.range vs.length).map s.dataAddr) s (s.setMem (s.mem.writeBytes (s.dataAddr 0) vs)).advance := by
  constructor
  case mem =>
    intro a ha
    refine Memory.read_writeBytes_of_not_mem ?_
    by_contra hin
    refine ha (List.mem_map.mpr ⟨a - s.I.toNat, List.mem_range.mpr ?_, ?_⟩) <;>
    · simp only [State.dataAddr] at hin ⊢
      omega
  all_goals simp

/-- The `k`-th byte stored at `I` onward is read back at `I + k`, inside a canonical memory. -/
theorem read_store {s : State} (hm : s.mem.wf = true) {vs : List Byte} {k : Nat} (hk : k < vs.length)
    (ha : s.dataAddr (vs.length - 1) ≤ 0xFFF) :
    (s.setMem (s.mem.writeBytes (s.dataAddr 0) vs)).advance.mem.read (s.dataAddr k) = vs[k] :=
  Memory.read_writeBytes hm (by simp only [State.dataAddr] at ha ⊢; omega) hk

theorem faultOf_ldB_of_le {s : State} (h : s.dataAddr 2 ≤ 0xFFF) (x : RegIdx) : faultOf s (.ldB x) = none :=
  if_neg (Nat.not_lt.mpr h)

theorem faultOf_storeRegs_of_le {s : State} {x : RegIdx} (h : s.dataAddr x.val ≤ 0xFFF) :
    faultOf s (.storeRegs x) = none :=
  if_neg (Nat.not_lt.mpr h)

theorem faultOf_loadRegs_of_le {s : State} {x : RegIdx} (h : s.dataAddr x.val ≤ 0xFFF) :
    faultOf s (.loadRegs x) = none :=
  if_neg (Nat.not_lt.mpr h)

/-- A number that fits in a byte is the number of that byte. -/
theorem toNat_byte_ofNat {k : Nat} (h : k < 256) : (BitVec.ofNat 8 k).toNat = k := by
  rw [BitVec.toNat_ofNat, Nat.mod_eq_of_lt h]

/-- Settles O30: the bytes stored are the three digits, each below 10. -/
theorem ldBStoresTheDecimalDigits : Obligations.LdBStoresTheDecimalDigits := by
  intro x
  refine ⟨decodeWord_encode (.ldB x), fun s hm => ⟨fun ha => ?stored, fun ha => ?fault⟩⟩
  case stored =>
    have hx := (s.reg x).isLt
    have hread (k : Nat) (hk : k < 3) := read_store (vs := bcdDigits (s.reg x)) hm hk ha
    refine ⟨_, exec_of_none (faultOf_ldB_of_le ha x), ?_, ?_, ?_, rfl,
      frame_store s (bcdDigits (s.reg x))⟩
    · exact (congrArg _ (hread 0 (by decide))).trans (toNat_byte_ofNat (by omega))
    · exact (congrArg _ (hread 1 (by decide))).trans (toNat_byte_ofNat (by omega))
    · exact (congrArg _ (hread 2 (by decide))).trans (toNat_byte_ofNat (by omega))
  case fault => exact ⟨_, exec_of_some (i := .ldB x) (if_pos ha), rfl⟩

/-- Settles O31: the bytes stored are the registers in ascending order. -/
theorem storeRegsWritesV0ToVx : Obligations.StoreRegsWritesV0ToVx := by
  intro x
  refine ⟨decodeWord_encode (.storeRegs x), fun s hm => ⟨fun ha => ?stored, fun ha => ?fault⟩⟩
  case stored =>
    have hlen := State.regsUpTo_length s x
    refine ⟨_, exec_of_none (faultOf_storeRegs_of_le ha), fun r hr => ?bytes, rfl, hlen ▸ frame_store s _⟩
    case bytes =>
      have hk : r.val < (s.regsUpTo x).length := by rw [hlen]; exact Nat.lt_succ_of_le hr
      have ha' : s.dataAddr ((s.regsUpTo x).length - 1) ≤ 0xFFF := by rwa [hlen, Nat.add_sub_cancel]
      exact (read_store hm hk ha').trans (State.regsUpTo_get s x r hk)
  case fault => exact ⟨_, exec_of_some (i := .storeRegs x) (if_pos ha), rfl⟩

/-! ## The load of registers -/

/-- A load of registers changes those up to `x` and `pc` only (R185). -/
theorem frame_loadRegs (s : State) (x : RegIdx) :
    Frame ((List.finRange 16).filter (fun r => decide (r ≤ x))) [] [] s (doneBy s (.loadRegs x)) := by
  constructor
  case reg => exact fun r hr => doneBy_reg s (i := .loadRegs x) hr
  all_goals intros; rfl

/-- Settles O32: register `r` is loaded from `I + r`, and registers above `x` are not loaded. -/
theorem loadRegsReadsV0ToVx : Obligations.LoadRegsReadsV0ToVx := by
  intro x
  refine ⟨decodeWord_encode (.loadRegs x), fun s => ⟨fun ha => ?loaded, fun ha => ?fault⟩⟩
  case loaded =>
    refine ⟨_, exec_of_none (faultOf_loadRegs_of_le ha), fun r hr => ?bytes, rfl, frame_loadRegs s x⟩
    case bytes =>
      exact (State.reg_setV_loadRegFile s s.mem (s.dataAddr 0) (x.val + 1) r).trans (if_pos (Nat.lt_succ_of_le hr))
  case fault => exact ⟨_, exec_of_some (i := .loadRegs x) (if_pos ha), rfl⟩

/-! ## Stored bytes as code -/

/-- Settles O49: the addresses of two adjacent registers are those of the two bytes of a fetch. -/
theorem storedRegistersAreFetchedAsCode : Obligations.StoredRegistersAreFetchedAsCode := by
  intro x s hm ha
  obtain ⟨-, hstore⟩ := storeRegsWritesV0ToVx x
  obtain ⟨t, ht, hread, -⟩ := (hstore s hm).1 ha
  refine ⟨t, ht, fun r q hq hqx u hmem hpc => ?_⟩
  have hle : q.val ≤ x.val := hqx
  have hr : r.val ≤ x.val := by omega
  have hnext : u.pc.toNat + 1 = s.dataAddr q.val := by rw [hpc, hq]; rfl
  constructor
  · simp only [State.canFetch, decide_eq_true_eq, State.dataAddr] at ha hpc ⊢
    omega
  · rw [State.fetchBytes, hmem, hnext, hpc, hread r hr, hread q hqx]

end Sys2Proof.Certificates
end

section
/-! The keypad and the timers (44_keypad.md, R200 to R204; 45_timers.md, R215 to R221). -/

namespace Sys2Proof.Certificates

open Sys2Proof.Machine

/-! ## The skips on keys -/

theorem faultOf_skp_of_eq {s : State} {x k : RegIdx} (h : (s.reg x).toNat = k.val) : faultOf s (.skp x) = none :=
  if_neg (by omega)

theorem faultOf_sknp_of_eq {s : State} {x k : RegIdx} (h : (s.reg x).toNat = k.val) : faultOf s (.sknp x) = none :=
  if_neg (by omega)

/-- Settles O33: the skip condition is the bit of key `V[x]` in the snapshot of the step. -/
theorem skpSkipsOnAHeldKey : Obligations.SkpSkipsOnAHeldKey := by
  intro x
  refine ⟨decodeWord_encode (.skp x), fun s => ⟨fun k hk => ?skip, fun hk => ?fault⟩⟩
  case skip =>
    refine ⟨_, exec_of_none (faultOf_skp_of_eq hk), ?pc, frame_advanceSkipIf s _⟩
    case pc => simp only [doneBy, State.advanceSkipIf_pc, State.keyHeld, hk]
  case fault => exact ⟨_, exec_of_some (i := .skp x) (if_pos hk), rfl⟩

/-- Settles O34: the skip condition is the absence of the bit of key `V[x]` in the snapshot of the step. -/
theorem sknpSkipsOnAFreeKey : Obligations.SknpSkipsOnAFreeKey := by
  intro x
  refine ⟨decodeWord_encode (.sknp x), fun s => ⟨fun k hk => ?skip, fun hk => ?fault⟩⟩
  case skip =>
    refine ⟨_, exec_of_none (faultOf_sknp_of_eq hk), ?pc, frame_advanceSkipIf s _⟩
    case pc =>
      simp only [doneBy, State.advanceSkipIf_pc, State.keyHeld, hk, Bool.not_eq_true', ← Bool.not_eq_true, ite_not]
  case fault => exact ⟨_, exec_of_some (i := .sknp x) (if_pos hk), rfl⟩

/-! ## The key wait -/

/-- Entering the wait changes `status` and `prevKeys` only (R202). -/
theorem frame_ldVxK (s : State) (x : RegIdx) : Frame [] [.status, .prevKeys] [] s (doneBy s (.ldVxK x)) := by
  constructor
  case status | prevKeys => exact fun h => absurd (by decide) h
  all_goals intros; rfl

/-- Settles O35: the snapshot recorded is that of the step, and `pc` stays. -/
theorem ldVxKEntersTheWait : Obligations.LdVxKEntersTheWait :=
  fun x => ⟨decodeWord_encode (.ldVxK x), fun s => ⟨_, exec_of_none (i := .ldVxK x) rfl, rfl, rfl, rfl,
    frame_ldVxK s x⟩⟩

/-- The edges that a poll searches are those of R204. -/
theorem getLsbD_edges (prev keys : Word) (k : RegIdx) :
    (keys &&& ~~~prev).getLsbD k.val = true ↔ Edge prev keys k := by
  simp only [Edge, BitVec.getLsbD_and, BitVec.getLsbD_not, k.isLt, decide_true, Bool.true_and, Bool.and_eq_true,
    Bool.not_eq_true', and_comm]

theorem firstKey_edges_eq_none {prev keys : Word} :
    firstKey (keys &&& ~~~prev) = none ↔ ∀ k, ¬ Edge prev keys k := by
  simp only [firstKey_eq_none, ← getLsbD_edges, Bool.not_eq_true]

theorem firstKey_edges_eq_some {prev keys : Word} {k : RegIdx} :
    firstKey (keys &&& ~~~prev) = some k ↔ Edge prev keys k ∧ ∀ j, j < k → ¬ Edge prev keys j := by
  simp only [firstKey_eq_some, ← getLsbD_edges, Bool.not_eq_true]

/-- A step of a waiting machine is a poll with the step's snapshot, and then the sound output is read (R90, R203). -/
theorem step_of_waiting {s : State} {keys : Word} {rnd : Byte} {rest : List Event} {x : RegIdx}
    (h : StepComes s keys rnd rest) (hf : s.fault = none) (hs : s.status = .awaitingKey x) :
    step s = .next ((s.atStep keys rnd rest).poll x).report := by
  obtain ⟨hl, he⟩ := h
  rw [step_of_step_event hl he, State.runCycle_of_waiting (s := s.atStep keys rnd rest) hf hs, reported]

/-- Settles O36: the search of the poll finds the least key with an edge, or none. -/
theorem pollEndsTheWaitOnTheLeastPressEdge : Obligations.PollEndsTheWaitOnTheLeastPressEdge := by
  intro s keys rnd rest x h hf hs
  rw [step_of_waiting h hf hs]
  constructor
  · intro hno
    have hnone : firstKey (keys &&& ~~~s.prevKeys) = none := firstKey_edges_eq_none.mpr hno
    rw [State.poll_of_none (s := s.atStep keys rnd rest) x hnone]
    rfl
  · intro k hk hleast
    have hsome : firstKey (keys &&& ~~~s.prevKeys) = some k := firstKey_edges_eq_some.mpr ⟨hk, hleast⟩
    rw [State.poll_of_some (s := s.atStep keys rnd rest) x hsome]
    rfl

/-! ## The timers -/

/-- Settles O37: the byte written to `V[x]` is `DT`. -/
theorem ldVxDTReadsTheDelayTimer : Obligations.LdVxDTReadsTheDelayTimer :=
  fun x => ⟨decodeWord_encode (.ldVxDT x), fun s => ⟨_, exec_of_none (i := .ldVxDT x) rfl, reg_setReg_advance s x _,
    pc_setReg_advance s x _, frame_setReg_advance s x _⟩⟩

/-- Writing `DT` changes it and `pc` only (R216). -/
theorem frame_setDT_advance (s : State) (v : Byte) : Frame [] [.DT] [] s (s.setDT v).advance := by
  constructor
  case DT => exact fun h => absurd (List.mem_singleton_self _) h
  all_goals simp

/-- Writing `ST` changes it and `pc` only (R217). -/
theorem frame_setST_advance (s : State) (v : Byte) : Frame [] [.ST] [] s (s.setST v).advance := by
  constructor
  case ST => exact fun h => absurd (List.mem_singleton_self _) h
  all_goals simp

/-- Settles O38: the byte written to `DT` is `V[x]`. -/
theorem ldDTVxSetsTheDelayTimer : Obligations.LdDTVxSetsTheDelayTimer :=
  fun x => ⟨decodeWord_encode (.ldDTVx x), fun s => ⟨_, exec_of_none (i := .ldDTVx x) rfl, rfl, rfl,
    frame_setDT_advance s _⟩⟩

/-- Settles O39: the byte written to `ST` is `V[x]`, and the output is read from the state after it. -/
theorem ldSTVxSetsTheSoundTimer : Obligations.LdSTVxSetsTheSoundTimer :=
  fun x => ⟨decodeWord_encode (.ldSTVx x), fun s => ⟨_, exec_of_none (i := .ldSTVx x) rfl, rfl, decide_eq_true_iff, rfl,
    frame_setST_advance s _⟩⟩

/-- A queued tick of a machine that exists (R221). -/
theorem step_of_tick_event {s : State} {rest : List Event} (hl : s.loaded = true) (he : s.io.events = .timerTick :: rest) :
    step s = .next ({ s with io := { s.io with events := rest } } : State).tick := by
  rw [step_of_queued he]
  exact if_pos hl

/-- Settles O40: each timer counts down by itself. -/
theorem timerTickCountsBothTimersDown : Obligations.TimerTickCountsBothTimersDown := by
  intro s rest hl he hf
  have htick : ({ s with io := { s.io with events := rest } } : State).tick =
      { s with DT := countDown s.DT, ST := countDown s.ST, io := { s.io with events := rest } } := by
    simp only [State.tick, hf]
  exact ⟨_, (step_of_tick_event hl he).trans (congrArg _ htick), countDown_toNat s.DT, countDown_toNat s.ST, rfl⟩

end Sys2Proof.Certificates
end

section
/-! The step cycle, the aborted state, and the load (30_encoding.md section 1, 60_exceptions.md, 70_reset_and_hazards.md). -/

namespace Sys2Proof.Certificates

open Sys2Proof.Machine

/-! ## The step (R90, R91) -/

/-- A step of a running machine without a fault runs the instruction at `pc`, and then the sound output is read. -/
theorem step_of_running {s : State} {keys : Word} {rnd : Byte} {rest : List Event} (h : StepComes s keys rnd rest)
    (hf : s.fault = none) (hs : s.status = .running) :
    step s = reported (s.atStep keys rnd rest).runInstruction := by
  obtain ⟨hl, he⟩ := h
  rw [step_of_step_event hl he, State.runCycle_of_running (s := s.atStep keys rnd rest) hf hs]

theorem reported_eq_mapNext (o : Host.Outcome State Fault Refusal) : reported o = mapNext State.report o := by
  cases o <;> rfl

/-- Settles O41: the cycle passes its tests and calls `exec`. -/
theorem stepRunsTheDecodedInstruction : Obligations.StepRunsTheDecodedInstruction := by
  intro s keys rnd rest i tail h hf hs hpc hd
  rw [step_of_running h hf hs, State.runInstruction_of_ok (s := s.atStep keys rnd rest) hpc hd, reported_eq_mapNext]
  rfl

/-- A word in no row is rejected by the decoder (R101). -/
theorem decodeWord_of_no_row {w : Word} (h : ∀ r ∈ opcodeRows, w &&& r.mask ≠ r.bits) :
    ∃ e, decodeWord w = .error e := by
  cases hd : decodeWord w with
  | error e => exact ⟨e, rfl⟩
  | ok i =>
    obtain ⟨r, hr, hm⟩ := (exists_decodeWord_iff w).mp ⟨i, hd⟩
    exact absurd hm (h r hr)

theorem decode_fetchBytes_of_error {s : State} {e : Reject} (h : decodeWord s.fetchWord = .error e) :
    decode s.fetchBytes = .error e := by
  rw [State.decode_fetchBytes, h]

/-- Settles O42: the fetched word is in no row, so it does not decode. -/
theorem illegalWordIsADecodeError : Obligations.IllegalWordIsADecodeError := by
  intro s keys rnd rest op h hf hs hpc hop hno
  subst hop
  obtain ⟨e, he⟩ := decodeWord_of_no_row hno
  have hd : decode (s.atStep keys rnd rest).fetchBytes = .error e := decode_fetchBytes_of_error he
  rw [step_of_running h hf hs, State.runInstruction_of_illegal (s := s.atStep keys rnd rest) hpc hd]
  rfl

/-- Settles O43: the test of the fetch comes before the fetch. -/
theorem fetchAboveMemoryIsAFault : Obligations.FetchAboveMemoryIsAFault := by
  intro s keys rnd rest h hf hs hpc
  rw [step_of_running h hf hs, State.runInstruction_of_outside (s := s.atStep keys rnd rest) hpc]
  rfl

/-- Settles O44: the test of the fault comes first in a step and in a tick. -/
theorem abortedMachineIsFrozen : Obligations.AbortedMachineIsFrozen := by
  intro s f rest hf
  constructor
  · rintro keys rnd ⟨hl, he⟩
    rw [step_of_step_event hl he, State.runCycle_of_fault (s := s.atStep keys rnd rest) hf]
    rfl
  · intro hl he
    rw [step_of_tick_event hl he]
    simp only [State.tick, hf]

/-! ## The load (R237, R280) and what comes before it (R282) -/

theorem step_of_load_event {s : State} {rom : List Byte} {rest : List Event} (he : s.io.events = .load rom :: rest) :
    step s = ({ s with io := { s.io with events := rest } } : State).load rom :=
  step_of_queued he

/-- Settles O51: the length is tested first. -/
theorem loadRefusesAnOversizedRom : Obligations.LoadRefusesAnOversizedRom := by
  intro s rom rest he hlen
  rw [step_of_load_event he]
  exact if_pos hlen

/-- Settles O52: both events test that the machine exists. -/
theorem noEventHasAMeaningBeforeALoad : Obligations.NoEventHasAMeaningBeforeALoad := by
  intro s rest hl
  refine ⟨fun keys rnd he => ?_, fun he => ?_⟩ <;>
  · rw [step_of_queued he]
    exact if_neg (by simp [hl])

/-- Settles O53: taking the queued event off gives the state in which the free event is drawn. -/
theorem anEmptyQueueMeansAFreeEvent : Obligations.AnEmptyQueueMeansAFreeEvent := by
  intro s he
  have hio : { s.io with drawn := s.io.drawn + 1 } = { s.io with events := [], drawn := s.io.drawn + 1 } := by rw [← he]
  rw [step_of_empty he, step_of_queued rfl]
  exact congrArg (fun io => ({ s with io := io } : State).runEvent (Config.freeEvent s.io.drawn)) hio

/-! Memory after a load (R40, R66) -/

theorem read_ofRom_of_lt (font : Font) (rom : List Byte) {a : Nat} (ha : a < 0x200) :
    (Memory.ofRom font rom).read a = Memory.blank font a :=
  Memory.read_writeBytes_of_not_mem (.inl ha)

theorem read_ofRom {rom : List Byte} (hlen : rom.length ≤ 3584) (font : Font) (k : Nat) :
    (Memory.ofRom font rom).read (0x200 + k) = rom.getD k 0x00 := by
  rcases Nat.lt_or_ge k rom.length with hk | hk
  · rw [List.getD_eq_getElem _ _ hk]
    exact Memory.read_writeBytes (Memory.wf_empty font) (by simp only [Config.programBase]; omega) hk
  · rw [List.getD_eq_default _ _ hk, ← Memory.blank_above_font font (show 0x050 ≤ 0x200 + k by omega)]
    exact Memory.read_writeBytes_of_not_mem (.inr (Nat.add_le_add_left hk _))

/-! The reset values of R40 that are vectors -/

theorem reset_reg (r : RegIdx) : State.reset.reg r = 0x00 := Vector.getElem_replicate _

theorem reset_stack (k : Fin 16) : State.reset.stack[k.val] = 0x0000 := Vector.getElem_replicate _

theorem reset_pixel (r c : Nat) : State.reset.FB.pixel r c = false := Framebuffer.pixel_zero r c

/-- Settles O50: a load gives the reset state with the ROM image in memory. -/
theorem loadEstablishesTheResetState : Obligations.LoadEstablishesTheResetState := by
  intro s rom rest he hlen
  refine ⟨_, (step_of_load_event he).trans (if_neg (Nat.not_lt.mpr hlen)), reset_reg, rfl, rfl, rfl, reset_stack, rfl, rfl,
    fun r c _ _ => reset_pixel r c, rfl, rfl, rfl, rfl, Memory.ofRom_wf _ hlen, Memory.ofRom_font _ rom, fun k => ?font,
    fun a hlo hhi => ?zeros, fun k _ => read_ofRom hlen _ k, rfl⟩
  case font => exact (read_ofRom_of_lt _ rom (by omega)).trans (Memory.blank_font _ k)
  case zeros => exact (read_ofRom_of_lt _ rom hhi).trans (Memory.blank_above_font _ hlo)

/-- Settles O54: memory lists nothing at reset, so it reads as the font and zeros. -/
theorem resetStateHoldsTheResetValues : Obligations.ResetStateHoldsTheResetValues :=
  ⟨rfl, rfl, rfl, reset_reg, reset_stack, rfl, rfl, reset_pixel, rfl, rfl, rfl, rfl, Memory.blank_font Config.defaultFont,
    fun _ => Memory.blank_above_font Config.defaultFont⟩

/-! ## The fault codes -/

/-- Settles O58: the code of a state is that of the cause it records (R238). -/
theorem faultCodesAreThoseOfTheTable : Obligations.FaultCodesAreThoseOfTheTable := by
  refine ⟨fun s hf => by simp only [State.faultCode, hf], fun s f hf => ?recorded, fun _ => rfl⟩
  case recorded =>
    simp only [State.faultCode, hf]
    cases f.cause <;> rfl

end Sys2Proof.Certificates
end
